-- ==== Sys2Proof/Word.lean ====
section
/-! DEFINITION. The word types of the engine's two ports and the BitString of HSD: rules R8, R46, R47, R52. -/

namespace Sys2Proof

/-- A packed command or response word (R46, R47): 64 bits, bit 0 the least significant. -/
abbrev Word := BitVec 64

/-- The `PAYLOAD` field, as wide as the longest codeword, `N_MAX = 39` (R7, R11). -/
abbrev Payload := BitVec 39

/-- The 6-bit `RND` input from the randomness source (R46, R51). -/
abbrev Draw := BitVec 6

/-- HSD's BitString (R8): an ordered sequence of bits.
Position 1 is the head of the list; the list's length is `len(s)`. -/
abbrev BitString := List Bool

end Sys2Proof
end

