-- ==== Sys2Proof/Syntax.lean ====
section
/-! DEFINITION. The five operations of the engine (R45, R48), one constructor per row of spec/opcode_table.json. -/

namespace Sys2Proof

/-- A command with the fields its operation reads from the command word (R49).
`m` is the data length (`M`, R50) and `pos` the caller's position (`POS`, R51), both natural numbers (R72);
`payload` is the `PAYLOAD` field as it arrived, whose cut to the operand's length is part of the meaning (R59 step 4).
The draw of `inject_random` is no field of the command: it stands on the input `RND` (R46). -/
inductive Instr where
  /-- `OP = 0` (R67). -/
  | totalLength (m : Nat)
  /-- `OP = 1` (R80). -/
  | encode (m : Nat) (payload : Payload)
  /-- `OP = 2` (R91). -/
  | injectAt (m : Nat) (pos : Nat) (payload : Payload)
  /-- `OP = 3` (R92). -/
  | injectRandom (m : Nat) (payload : Payload)
  /-- `OP = 4` (R100). -/
  | decode (m : Nat) (payload : Payload)
  deriving DecidableEq, Repr

end Sys2Proof
end

