-- ==== Sys2Proof/WellFormed.lean ====
section
/-! DEFINITION. Which terms of Instr a command word can carry: every field fits the width R46 gives it. -/

namespace Sys2Proof

/-- The 6-bit `M` field holds `m` (R46, R50). -/
def fitsM (m : Nat) : Bool := decide (m < 64)

/-- The 6-bit `POS` field holds `pos` (R46, R51). -/
def fitsPos (pos : Nat) : Bool := decide (pos < 64)

/-- The fields of `i` fit the command format of R46.
An `m` that no operation accepts is well formed: the command can be sent, and faults (R50, R122). -/
def Instr.wellFormed : Instr → Bool
  | .totalLength m => fitsM m
  | .encode m _ => fitsM m
  | .injectAt m pos _ => fitsM m && fitsPos pos
  | .injectRandom m _ => fitsM m
  | .decode m _ => fitsM m

end Sys2Proof
end

