-- ==== Sys2Proof/Decode.lean ====
section
/-! DEFINITION. The command format (R46), the opcode map (R48), the command decoder and the encoder. -/

namespace Sys2Proof

/-! The fields of a command word (R46). -/

/-- `OP = CMD[63:61]`. -/
def cmdOp (w : Word) : BitVec 3 := w.extractLsb' 61 3

/-- `M = CMD[60:55]`. -/
def cmdM (w : Word) : BitVec 6 := w.extractLsb' 55 6

/-- `POS = CMD[54:49]`. -/
def cmdPos (w : Word) : BitVec 6 := w.extractLsb' 49 6

/-- `CMD[48:39]`, reserved and ignored. -/
def cmdReserved (w : Word) : BitVec 10 := w.extractLsb' 39 10

/-- `PAYLOAD = CMD[38:0]`. -/
def cmdPayload (w : Word) : Payload := w.extractLsb' 0 39

/-- A command word from its fields (R46). -/
def packCommand (op : BitVec 3) (m pos : BitVec 6) (reserved : BitVec 10) (payload : Payload) : Word :=
  op ++ m ++ pos ++ reserved ++ payload

/-- Why a command word selects no operation. -/
inductive DecodeError where
  /-- `OP` is 5, 6 or 7 (R55): the step answers with the fault `IllegalOp`. -/
  | illegalOp (op : BitVec 3)
  deriving DecidableEq, Repr

/-- The command decoder (R48, R56): `OP` alone selects the operation, the operation's own fields are read (R49),
and every other bit is ignored (R55). -/
def decodeCommand (w : Word) : Except DecodeError Instr :=
  match (cmdOp w).toNat with
  | 0 => .ok (.totalLength (cmdM w).toNat)
  | 1 => .ok (.encode (cmdM w).toNat (cmdPayload w))
  | 2 => .ok (.injectAt (cmdM w).toNat (cmdPos w).toNat (cmdPayload w))
  | 3 => .ok (.injectRandom (cmdM w).toNat (cmdPayload w))
  | 4 => .ok (.decode (cmdM w).toNat (cmdPayload w))
  | _ => .error (.illegalOp (cmdOp w))

/-- The operation number of an instruction (R48). -/
def opOf : Instr → BitVec 3
  | .totalLength _ => 0
  | .encode _ _ => 1
  | .injectAt _ _ _ => 2
  | .injectRandom _ _ => 3
  | .decode _ _ => 4

/-- The command word of an instruction (R46, R48), with 0 in every field the operation does not read. -/
def encodeCommand : Instr → Word
  | .totalLength m => packCommand 0 (BitVec.ofNat 6 m) 0 0 0
  | .encode m payload => packCommand 1 (BitVec.ofNat 6 m) 0 0 payload
  | .injectAt m pos payload => packCommand 2 (BitVec.ofNat 6 m) (BitVec.ofNat 6 pos) 0 payload
  | .injectRandom m payload => packCommand 3 (BitVec.ofNat 6 m) 0 0 payload
  | .decode m payload => packCommand 4 (BitVec.ofNat 6 m) 0 0 payload

/-- The command word that the low `nbits` bits of `w` make, every bit above them 0.
A command is one 64-bit word (R46, R56), so the table's numbering and the word's are the same. -/
def tableWord (nbits w : Nat) : Word := BitVec.ofNat 64 (w % 2 ^ nbits)

/-- The instruction the decoder reads from the table word `w` of `nbits` bits; none where the decoder rejects it. -/
def decodeTableWord (nbits w : Nat) : Option Instr :=
  match decodeCommand (tableWord nbits w) with
  | .ok i => some i
  | .error _ => none

end Sys2Proof
end

