-- ==== Sys2Proof/Config.lean ====
section
/-! DEFINITION. The parameters of the engine (R7): the constants decided for this hardware, and `DEC_SPAN`, which the spec leaves open and the model takes as an argument. -/

namespace Sys2Proof

/-- `DEC_SPAN` (R103): the set of positions the decoder's parity checks run over. -/
inductive DecSpan where
  /-- `INCLUDE_N`: the checks run over `1..n`, the decoder as HSD §4.4 writes it. -/
  | includeN
  /-- `EXCLUDE_N`: the checks run over `1..n-1`, the symmetric coverage of HSD §9. -/
  | excludeN
  deriving DecidableEq, Repr

/-- What an instance of the engine fixes and no command reads or writes (R14).
`SUPPORTED_M` is the other such constant; the spec decides it (D2), so it stands below as a value. -/
structure Config where
  decSpan : DecSpan
  deriving DecidableEq, Repr

/-- `SUPPORTED_M` (R7, D2): the data lengths `encode`, `inject_at`, `inject_random` and `decode` accept. -/
def supportedM : List Nat := [8, 16, 32]

/-- `M_MAX` (R7): the largest supported data length. -/
def mMax : Nat := 32

/-- `R_MAX` (R7): the parity count of `M_MAX`. -/
def rMax : Nat := 6

/-- `N_MAX` (R7): the total length of `M_MAX`, the width of the payload field. -/
def nMax : Nat := 39

/-- `M_FIELD_MAX` (R7): the largest `m` that `total_length` accepts, the largest value of the 6-bit `M` field. -/
def mFieldMax : Nat := 63

end Sys2Proof
end

