-- ==== Sys2Proof/Machine/State.lean ====
section
/-! DEFINITION. The state of the model, the engine's faults, and the types of what an operation gives.
The engine itself keeps nothing between commands (R10); what stands in State is the instance's constant, the input ports
with what the host will send, and the response port with what it has delivered (notes/assumptions/1.md). -/

namespace Sys2Proof.Machine

/-- The four faults of the engine (R120).
A fault is TAKEN: it ends the operation with a response that holds its code and nothing else (R126), and the machine goes on,
so no step of this model ends in `Host.Outcome.fault` (notes/assumptions/2.md). -/
inductive Fault where
  /-- Code 1, raised by the step on a command whose `OP` is 5, 6 or 7 (R121); safe, the spec's own fault. -/
  | illegalOp
  /-- Code 2, raised by every operation whose `M` is not legal for it (R122); safe, the spec's own fault. -/
  | badLength
  /-- Code 3, raised by `inject_at` and `inject_random` on a position outside `1..n` (R123); safe, the spec's own fault. -/
  | posOutOfRange
  /-- Code 4, raised by `decode` in the single-bit-error case with a syndrome above `n` (R124); safe, the spec's own fault. -/
  | syndromeOutOfRange
  deriving DecidableEq, Repr

/-- Why the model could answer nothing for an instruction. -/
inductive Refusal where
  /-- Raised by `exec` for an instruction whose meaning is not written; no arm of this model raises it; safe. -/
  | notModelled (mnemonic : String)
  deriving DecidableEq, Repr

/-- HSD's three classification tags (R53, R105). -/
inductive Status where
  /-- "no error". -/
  | noError
  /-- "single-bit error". -/
  | singleCorrected
  /-- "double-bit (or unclassifiable) error". -/
  | doubleUncorrectable
  deriving DecidableEq, Repr

/-- The kind of a codeword position (R68). -/
inductive PosKind where
  | parity
  | data
  | overall
  deriving DecidableEq, Repr

/-- What an operation produces when it completes: exactly the fields of the right column of R49. -/
inductive Result where
  /-- `total_length`: `N`. -/
  | length (n : Nat)
  /-- `encode`: `N` and the codeword. -/
  | codeword (n : Nat) (cw : BitString)
  /-- `inject_at`, `inject_random`: `N`, the position flipped and the corrupted codeword. -/
  | injected (n pos : Nat) (cw : BitString)
  /-- `decode`: `N`, the tag, the computed overall parity and the corrected or unchanged codeword. -/
  | decoded (n : Nat) (status : Status) (ovp : Bool) (cw : BitString)
  deriving DecidableEq, Repr

/-- The fields of a response (R47), without the field `RSP[44:39]`, which is always 0. -/
structure Response where
  fault : BitVec 3
  status : BitVec 2
  ovp : BitVec 1
  n : BitVec 7
  pos : BitVec 6
  payload : Payload
  deriving DecidableEq, Repr

/-- What the outside does to the engine. -/
inductive Input where
  /-- The host sends the command word `cmd`; `rnd` is what the randomness source presents on `RND` with it (R18, R46). -/
  | command (cmd : Word) (rnd : Draw)
  /-- The reset input is asserted; `abandoned` is the command that was in progress, if one was (R140, D12). -/
  | reset (abandoned : Option Word)
  deriving DecidableEq, Repr

/-- The state of the model.
`config` is the instance's constant (R14); `inputs` is what the outside will do, oldest first (R38);
`rnd` is the level on the input `RND[5:0]` beside the command in hand (R11, R46);
`responses` is every response word the engine has delivered, oldest first, which the host keeps and no step reads (R5, R10). -/
structure State where
  config : Config
  inputs : List Input
  rnd : Draw
  responses : List Word
  deriving DecidableEq, Repr

/-- The machine right after reset (R140): idle, nothing sent and nothing delivered.
DESIGN CHOICE: `DEC_SPAN` is `INCLUDE_N`, the value the spec names where one must be named (R7, D1), and `RND` is 0
(notes/assumptions/3.md, notes/assumptions/4.md). -/
def State.reset : State :=
  { config := { decSpan := .includeN }, inputs := [], rnd := 0, responses := [] }

end Sys2Proof.Machine
end

