-- ==== Sys2Proof/Machine/Ops.lean ====
section
/-! DEFINITION. The named operations: the slot accesses of a BitString (R31), the flip (R90), the packing of a BitString (R52)
and of a response (R47), taking an input, completing a command and raising a fault (R126).
There is no return from a fault: nothing is saved and nothing nests (R127). -/

namespace Sys2Proof.Machine

/-! Slots of a BitString: positions are 1-indexed and there is no position 0 (R8). -/

/-- The positions `1..hi`, in increasing order (R30). -/
def positions (hi : Nat) : List Nat := List.range' 1 hi

/-- `s[j]` (R31), for `1 ≤ j ≤ len(s)`.
Outside that range an access has no value and no operation makes one (notes/assumptions/5.md). -/
def readSlot (s : BitString) : Nat → Bool
  | 0 => false
  | k + 1 => s.getD k false

/-- `s[j] <- v` on a working copy (R31, R40), for `1 ≤ j ≤ len(s)`. -/
def writeSlot (s : BitString) (j : Nat) (v : Bool) : BitString :=
  match j with
  | 0 => s
  | k + 1 => s.set k v

/-- `flip(c, q)` (R90): the bit at position `q` inverted, every other bit and the length kept. -/
def flipBit (c : BitString) (q : Nat) : BitString := writeSlot c q (!readSlot c q)

/-- `XOR{ s[j] : j in S }` (R8); the empty XOR is 0. -/
def xorOver (s : BitString) (S : List Nat) : Bool := S.foldr (fun j acc => readSlot s j ^^ acc) false

/-! The packed forms. -/

/-- The BitString of length `len` that a payload carries: position `j` is bit `j-1`, bits at `len` and above are ignored
(R32, R52). -/
def bitsOfPayload (len : Nat) (p : Payload) : BitString := (List.range len).map p.getLsbD

/-- The payload of a BitString: position `j` at bit `j-1`, bits at and above its length 0 (R32, R52). -/
def payloadOfBits (s : BitString) : Payload := (BitVec.ofBoolListLE s).setWidth 39

/-- The `FAULT` code of a fault (R54). -/
def faultCode : Fault → BitVec 3
  | .illegalOp => 1
  | .badLength => 2
  | .posOutOfRange => 3
  | .syndromeOutOfRange => 4

/-- The `STATUS` code of a tag (R53). -/
def statusCode : Status → BitVec 2
  | .noError => 0
  | .singleCorrected => 1
  | .doubleUncorrectable => 2

/-- The response fields of a completed operation: `FAULT` and every field the operation does not produce are 0 (R49). -/
def responseOf : Result → Response
  | .length n => ⟨0, 0, 0, BitVec.ofNat 7 n, 0, 0⟩
  | .codeword n cw => ⟨0, 0, 0, BitVec.ofNat 7 n, 0, payloadOfBits cw⟩
  | .injected n pos cw => ⟨0, 0, 0, BitVec.ofNat 7 n, BitVec.ofNat 6 pos, payloadOfBits cw⟩
  | .decoded n status ovp cw => ⟨0, statusCode status, BitVec.ofBool ovp, BitVec.ofNat 7 n, 0, payloadOfBits cw⟩

/-- The response fields of a faulted command: the code, and 0 in every other field (R126). -/
def faultResponse (f : Fault) : Response := ⟨faultCode f, 0, 0, 0, 0, 0⟩

/-- The response word (R47): `FAULT[63:61] STATUS[60:59] OVP[58] N[57:51] POS[50:45] zero[44:39] PAYLOAD[38:0]`. -/
def packResponse (r : Response) : Word :=
  r.fault ++ r.status ++ r.ovp ++ r.n ++ r.pos ++ (0 : BitVec 6) ++ r.payload

/-- The fields of a response word, as the host reads them (R47). -/
def unpackResponse (w : Word) : Response :=
  { fault := w.extractLsb' 61 3, status := w.extractLsb' 59 2, ovp := w.extractLsb' 58 1,
    n := w.extractLsb' 51 7, pos := w.extractLsb' 45 6, payload := w.extractLsb' 0 39 }

/-- `RSP[44:39]`, always 0 (R47). -/
def rspZero (w : Word) : BitVec 6 := w.extractLsb' 39 6

/-! The ports. -/

/-- The engine takes a command: it is no longer waiting to be sent, and `rnd` stands on `RND` (R46). -/
def State.accept (s : State) (rnd : Draw) (rest : List Input) : State := { s with rnd := rnd, inputs := rest }

/-- A reset input: a command in progress is abandoned and gives no response; nothing else is visible (R140). -/
def State.abandon (s : State) (rest : List Input) : State := { s with inputs := rest }

/-- The engine delivers one response word to the host. -/
def State.respond (s : State) (r : Response) : State := { s with responses := s.responses ++ [packResponse r] }

/-- An operation completes: step 6 of R59. -/
def complete (r : Result) (s : State) : Host.Outcome State Fault Refusal := .next (s.respond (responseOf r))

/-- `raise Fault(X)` (R126): the operation ends with the fault response; nothing is saved, no mode changes, and the engine
is ready for the next command (R127). -/
def raiseFault (f : Fault) (s : State) : Host.Outcome State Fault Refusal := .next (s.respond (faultResponse f))

/-- The response of an operation: that of its result, or that of the fault it raised (R6). -/
def replyOf : Except Fault Result → Response
  | .ok r => responseOf r
  | .error f => faultResponse f

/-- An operation ends in exactly one of a result (`complete`) or a fault (`raiseFault`), and either way the machine goes on
(R6, R127). -/
def finish (e : Except Fault Result) (s : State) : Host.Outcome State Fault Refusal := .next (s.respond (replyOf e))

end Sys2Proof.Machine
end

