-- ==== Sys2Proof/Machine/ParityPositionDecoder.lean ====
section
/-! DEFINITION. The block parity_position_decoder (R76): parity count, total length, position kinds, data positions and
coverage.
Its outputs depend on `m` only; every rule here is written for every `m ≥ 1` (R7). -/

namespace Sys2Proof.Machine

/-- How many bits of `i` are set; no bit at index `i` or above is. -/
def setBits (i : Nat) : Nat := ((List.range i).filter i.testBit).length

/-- `is_power_of_two(i)` on naturals (R65): `i > 0` and exactly one set bit. -/
def isPowerOfTwo (i : Nat) : Bool := decide (0 < i) && setBits i == 1

/-- `is_power_of_two(i)` on the integers of HSD's contract (R65): false for every negative integer. -/
def isPowerOfTwoInt : Int → Bool
  | .ofNat i => isPowerOfTwo i
  | .negSucc _ => false

/-- The search of R66: from `r` upward while `2^r < m + r + 1`, at most `fuel` steps. -/
def parityCountFrom (m : Nat) : Nat → Nat → Nat
  | 0, r => r
  | fuel + 1, r => if 2 ^ r < m + r + 1 then parityCountFrom m fuel (r + 1) else r

/-- `parity_count(m)` (R66): the minimal `r` with `2^r ≥ m + r + 1`; `m + 1` steps reach it. -/
def parityCount (m : Nat) : Nat := parityCountFrom m (m + 1) 0

/-- `total_length(m)` (R67): `n = m + r + 1`. -/
def totalLength (m : Nat) : Nat := m + parityCount m + 1

/-- `kind(j)` in a codeword of length `n` (R68); the test `j = n` comes first. -/
def kind (n j : Nat) : PosKind :=
  if j = n then .overall else if isPowerOfTwo j then .parity else .data

/-- The parity positions `2^i`, `i` in `0..r-1` (R69). -/
def parityPositions (r : Nat) : List Nat := (List.range r).map (2 ^ ·)

/-- The data positions of a codeword of length `n`, in increasing order (R70): `dpos(1), dpos(2), ...`. -/
def dataPositions (n : Nat) : List Nat := (positions (n - 1)).filter (fun j => !isPowerOfTwo j)

/-- `dpos(k)` for `k` in `1..m` (R70); none for any other `k`. -/
def dpos (m : Nat) : Nat → Option Nat
  | 0 => none
  | k + 1 => (dataPositions (totalLength m))[k]?

/-- The coverage predicate of R71: `(j AND p) ≠ 0`. -/
def covers (p j : Nat) : Bool := j &&& p != 0

/-- `cover(p, hi)` (R71), in increasing order. -/
def cover (p hi : Nat) : List Nat := (positions hi).filter (covers p)

/-- `extract_data(cw)` (R75), a helper for stating properties: the engine has no command for it (D20). -/
def extractData (cw : BitString) : BitString := (dataPositions cw.length).map (readSlot cw)

end Sys2Proof.Machine
end

