-- ==== Sys2Proof/Machine/SyndromeCalculator.lean ====
section
/-! DEFINITION. The XOR trees of the block syndrome_calculator that the encoder uses, and the check function both
operations share (R83 to R85, R89). -/

namespace Sys2Proof.Machine

/-- `chk(cw, p, hi)` (R83): the XOR of the slots that `p` covers up to `hi`, slot `p` included. -/
def chk (cw : BitString) (p hi : Nat) : Bool := xorOver cw (cover p hi)

/-- One parity store of step 3 of `encode` (R84): the span is `n-1`. -/
def storeParity (n : Nat) (cw : BitString) (i : Nat) : BitString := writeSlot cw (2 ^ i) (chk cw (2 ^ i) (n - 1))

/-- Step 3 of `encode` (R84): the `r` parity stores in order, each seeing the ones before it (R143). -/
def storeParities (r n : Nat) (cw : BitString) : BitString := (List.range r).foldl (storeParity n) cw

/-- Step 4 of `encode` (R85): the XOR of positions `1..n-1` stored at position `n`. -/
def storeOverall (n : Nat) (cw : BitString) : BitString := writeSlot cw n (xorOver cw (positions (n - 1)))

end Sys2Proof.Machine
end

