-- ==== Sys2Proof/Machine/Flags.lean ====
section
/-! DEFINITION. The three values that play the part of flags within `decode` and die with it (R13): the syndrome, the overall
parity and the classification tag. -/

namespace Sys2Proof.Machine

/-- The upper end of the positions the decoder's checks run over (R103). -/
def spanEnd (span : DecSpan) (n : Nat) : Nat :=
  match span with
  | .includeN => n
  | .excludeN => n - 1

/-- One check of step 1 of `decode` (R102): a failing check ORs `2^i` into the running syndrome. -/
def syndromeStep (code : BitString) (hi synd i : Nat) : Nat :=
  if chk code (2 ^ i) hi then synd ||| 2 ^ i else synd

/-- `synd` (R102): the OR of the failing parity positions, from 0. -/
def syndrome (code : BitString) (r hi : Nat) : Nat := (List.range r).foldl (syndromeStep code hi) 0

/-- `ovp` (R104): the XOR of all `n` bits of the input as received. -/
def overallParity (code : BitString) (n : Nat) : Bool := xorOver code (positions n)

/-- The classification (R105). -/
def classify (synd : Nat) (ovp : Bool) : Status :=
  if synd = 0 ∧ ovp = false then .noError
  else if synd ≠ 0 ∧ ovp = true then .singleCorrected
  else .doubleUncorrectable

end Sys2Proof.Machine
end

