-- ==== Sys2Proof/Machine/ErrorCorrector.lean ====
section
/-! DEFINITION. The block error_corrector (R109): the tag and the result codeword, or the out-of-range condition
(R105 to R107). -/

namespace Sys2Proof.Machine

/-- Step 3 of `decode`: unchanged, or one flip at the syndrome's position in a copy (R106), or the fault where the syndrome
names no position (R107). -/
def correct (code : BitString) (n synd : Nat) (ovp : Bool) : Except Fault (Status × BitString) :=
  match classify synd ovp with
  | .noError => .ok (.noError, code)
  | .singleCorrected =>
    if n < synd then .error .syndromeOutOfRange else .ok (.singleCorrected, flipBit code synd)
  | .doubleUncorrectable => .ok (.doubleUncorrectable, code)

end Sys2Proof.Machine
end

