-- ==== Sys2Proof/Machine/Operands.lean ====
section
/-! DEFINITION. Operand assembly: which data lengths and positions an operation accepts (R50, R51), and the BitString operands
cut to their lengths (R52). -/

namespace Sys2Proof.Machine

/-- The data lengths `total_length` accepts (R50): `1 .. M_FIELD_MAX`. -/
def legalForTotalLength (m : Nat) : Bool := decide (1 ≤ m) && decide (m ≤ mFieldMax)

/-- The data lengths the other four operations accept (R50): `SUPPORTED_M`. -/
def supported (m : Nat) : Bool := supportedM.contains m

/-- A position, or a draw, is in `1..n` (R51). -/
def inRange (n pos : Nat) : Bool := decide (1 ≤ pos) && decide (pos ≤ n)

/-- The data word operand: `L = m` (R52). -/
def dataOperand (m : Nat) (payload : Payload) : BitString := bitsOfPayload m payload

/-- The codeword operand: `L = n = total_length(m)` (R52, R101). -/
def codeOperand (m : Nat) (payload : Payload) : BitString := bitsOfPayload (totalLength m) payload

end Sys2Proof.Machine
end

