-- ==== Sys2Proof/Machine/Decoder.lean ====
section
/-! DEFINITION. The operation decode (R100). -/

namespace Sys2Proof.Machine

/-- The decoder on a BitString (R100 after the length check), for every `m ≥ 1` and either span. -/
def decodeBits (span : DecSpan) (m : Nat) (code : BitString) : Except Fault Result :=
  let r := parityCount m
  let n := m + r + 1
  let synd := syndrome code r (spanEnd span n)
  let ovp := overallParity code n
  match correct code n synd ovp with
  | .ok (status, cw) => .ok (.decoded n status ovp cw)
  | .error f => .error f

/-- `decode(m, code)` (R100): `BadLength` outside `SUPPORTED_M`, else the classification and the codeword.
`OVP` is the computed overall parity of the input (R108). -/
def decodeResult (span : DecSpan) (m : Nat) (payload : Payload) : Except Fault Result :=
  if supported m then decodeBits span m (codeOperand m payload) else .error .badLength

/-- The meaning of `decode`, with the span the instance has (R103). -/
def execDecode (m : Nat) (payload : Payload) (s : State) : Host.Outcome State Fault Refusal :=
  finish (decodeResult s.config.decSpan m payload) s

end Sys2Proof.Machine
end

