-- ==== Sys2Proof/Machine/Encoder.lean ====
section
/-! DEFINITION. The operation encode (R80): allocation, data placement, parity and overall parity, in that order (R143). -/

namespace Sys2Proof.Machine

/-- Step 1 (R81): `n` slots, all 0. -/
def allocate (n : Nat) : BitString := List.replicate n false

/-- Step 2 (R82): walk the positions in order and place the next unused data bit at each that is not a power of two.
The walk uses every data bit once (R74 (d)), so the data never runs out (notes/assumptions/5.md). -/
def placeData : List Nat → BitString → BitString → BitString
  | [], _, cw => cw
  | j :: js, data, cw =>
    if isPowerOfTwo j then placeData js data cw
    else placeData js data.tail (writeSlot cw j (data.headD false))

/-- The codeword of a data word of length `m` (R80 steps 1 to 4), for every `m ≥ 1`. -/
def encodeBits (m : Nat) (data : BitString) : BitString :=
  let r := parityCount m
  let n := m + r + 1
  storeOverall n (storeParities r n (placeData (positions (n - 1)) data (allocate n)))

/-- `encode(m, data)` (R80): `BadLength` outside `SUPPORTED_M`, else `N = n` and the codeword. -/
def encodeResult (m : Nat) (payload : Payload) : Except Fault Result :=
  if supported m then .ok (.codeword (totalLength m) (encodeBits m (dataOperand m payload)))
  else .error .badLength

/-- The meaning of `encode`. -/
def execEncode (m : Nat) (payload : Payload) (s : State) : Host.Outcome State Fault Refusal :=
  finish (encodeResult m payload) s

end Sys2Proof.Machine
end

