-- ==== Sys2Proof/Machine/FaultInjector.lean ====
section
/-! DEFINITION. The operations inject_at (R91) and inject_random (R92): the Fault Injector. -/

namespace Sys2Proof.Machine

/-- `inject_at(m, code, pos)` (R91): the length is checked before the position (R125). -/
def injectAtResult (m pos : Nat) (payload : Payload) : Except Fault Result :=
  if supported m then
    if inRange (totalLength m) pos then
      .ok (.injected (totalLength m) pos (flipBit (codeOperand m payload) pos))
    else .error .posOutOfRange
  else .error .badLength

/-- The meaning of `inject_at`. -/
def execInjectAt (m pos : Nat) (payload : Payload) (s : State) : Host.Outcome State Fault Refusal :=
  finish (injectAtResult m pos payload) s

/-- `inject_random(m, code)` with `draw` (R92): the draw is the position; a draw outside `1..n` faults. -/
def injectRandomResult (m draw : Nat) (payload : Payload) : Except Fault Result :=
  if supported m then
    if inRange (totalLength m) draw then
      .ok (.injected (totalLength m) draw (flipBit (codeOperand m payload) draw))
    else .error .posOutOfRange
  else .error .badLength

/-- The meaning of `inject_random`: the draw is what stands on `RND` (R92); the command's `POS` is not read. -/
def execInjectRandom (m : Nat) (payload : Payload) (s : State) : Host.Outcome State Fault Refusal :=
  finish (injectRandomResult m s.rnd.toNat payload) s

end Sys2Proof.Machine
end

