-- ==== Sys2Proof/Machine/LengthCalculator.lean ====
section
/-! DEFINITION. The operation total_length (R67). -/

namespace Sys2Proof.Machine

/-- `total_length(m)` (R67): `BadLength` for a length that is not legal for it, else `N = n`. -/
def totalLengthResult (m : Nat) : Except Fault Result :=
  if legalForTotalLength m then .ok (.length (totalLength m)) else .error .badLength

/-- The meaning of `total_length`. -/
def execTotalLength (m : Nat) (s : State) : Host.Outcome State Fault Refusal :=
  finish (totalLengthResult m) s

end Sys2Proof.Machine
end

