-- ==== Sys2Proof/Machine/Dispatch.lean ====
section
/-! DEFINITION. exec: one arm per operation of the opcode map (R48). -/

namespace Sys2Proof.Machine

/-- The meaning of each operation. -/
def exec (i : Instr) (s : State) : Host.Outcome State Fault Refusal :=
  match i with
  | .totalLength m => Sys2Proof.Machine.execTotalLength m s
  | .encode m payload => Sys2Proof.Machine.execEncode m payload s
  | .injectAt m pos payload => Sys2Proof.Machine.execInjectAt m pos payload s
  | .injectRandom m payload => Sys2Proof.Machine.execInjectRandom m payload s
  | .decode m payload => Sys2Proof.Machine.execDecode m payload s

end Sys2Proof.Machine
end

