-- ==== Sys2Proof/Machine/Step.lean ====
section
/-! DEFINITION. One step: the engine handles the oldest input (R38, R59). -/

namespace Sys2Proof.Machine

/-- One step.
With nothing sent the engine stays idle (R140).
A command is taken with its draw, decoded, and executed in the one atomic step (R4, R151); a command whose `OP` selects no
operation faults before any other field is looked at (R59 step 1). -/
def step (s : State) : Host.Outcome State Fault Refusal :=
  match s.inputs with
  | [] => .next s
  | .reset _ :: rest => .next (s.abandon rest)
  | .command cmd rnd :: rest =>
    match decodeCommand cmd with
    | .ok i => exec i (s.accept rnd rest)
    | .error _ => raiseFault .illegalOp (s.accept rnd rest)

/-- `s` with the table word `w` as the next command, sent with the level that stands on `RND`
(notes/assumptions/6.md says how a command comes to be there). -/
def State.withFetchWord (s : State) (nbits w : Nat) : State :=
  { s with inputs := .command (tableWord nbits w) s.rnd :: s.inputs }

end Sys2Proof.Machine
end

