-- ==== Sys2Proof/Machine/TextForm.lean ====
section
/-! DEFINITION. The text form of a command (R57) and its packed form: what the host's assembler does, outside the engine.
Text with no packed form is refused here, never given a value (R130, U1 to U3 of spec/93). -/

namespace Sys2Proof.Machine

/-- A command in HSD's call syntax (R57), a BitString operand written as its characters, position 1 first (R8).
The draw of `inject_random` is written beside the command and is no operand. -/
inductive TextCommand where
  | totalLength (m : Nat)
  | encode (data : List Char)
  | injectAt (code : List Char) (pos : Nat)
  | injectRandom (code : List Char)
  | decode (code : List Char) (m : Nat)
  deriving DecidableEq, Repr

/-- One character of a BitString; any other character has no packed form (R57). -/
def bitOfChar (c : Char) : Option Bool :=
  if c = '0' then some false else if c = '1' then some true else none

/-- The BitString of a text; none where a character is not binary (U2). -/
def bitsOfText : List Char → Option BitString
  | [] => some []
  | c :: cs =>
    match bitOfChar c, bitsOfText cs with
    | some b, some bs => some (b :: bs)
    | _, _ => none

/-- The text of a BitString, position 1 leftmost (R8). -/
def textOfBits (s : BitString) : List Char := s.map (fun b => if b then '1' else '0')

/-- The `m` in `SUPPORTED_M` with `total_length(m) = len` (R57); at most one fits. -/
def lengthOfCode (len : Nat) : Option Nat := supportedM.find? (fun m => totalLength m == len)

/-- A command with a BitString operand of at most `N_MAX` bits, packed. -/
def packText (op : BitVec 3) (m pos : Nat) (bits : BitString) : Option Word :=
  if m ≤ mFieldMax ∧ pos < 64 ∧ bits.length ≤ nMax then
    some (packCommand op (BitVec.ofNat 6 m) (BitVec.ofNat 6 pos) 0 (payloadOfBits bits))
  else none

/-- The packed form of a text command (R57), where it has one.
`decode` has one only where the string's length is `total_length(m)` (U1). -/
def assemble : TextCommand → Option Word
  | .totalLength m => packText 0 m 0 []
  | .encode data =>
    match bitsOfText data with
    | some bits => packText 1 bits.length 0 bits
    | none => none
  | .injectAt code pos =>
    match bitsOfText code, lengthOfCode code.length with
    | some bits, some m => packText 2 m pos bits
    | _, _ => none
  | .injectRandom code =>
    match bitsOfText code, lengthOfCode code.length with
    | some bits, some m => packText 3 m 0 bits
    | _, _ => none
  | .decode code m =>
    match bitsOfText code with
    | some bits => if totalLength m = bits.length then packText 4 m 0 bits else none
    | none => none

/-- A BitString operand as it is written: in double quotes (R57). -/
def quoted (text : List Char) : List Char := '"' :: text ++ ['"']

/-- The call syntax of R57, decimal integers and quoted BitStrings. -/
def render : TextCommand → List Char
  | .totalLength m => "total_length(".toList ++ Nat.toDigits 10 m ++ [')']
  | .encode data => "encode(".toList ++ quoted data ++ [')']
  | .injectAt code pos => "inject_at(".toList ++ quoted code ++ [',', ' '] ++ Nat.toDigits 10 pos ++ [')']
  | .injectRandom code => "inject_random(".toList ++ quoted code ++ [')']
  | .decode code m => "decode(".toList ++ quoted code ++ [',', ' '] ++ Nat.toDigits 10 m ++ [')']

end Sys2Proof.Machine
end

