-- ==== Sys2Proof/Safety.lean ====
section
/-! DEFINITION. The terms claims are stated in: a delivered response, what a well-formed response is, the invariant of a state,
and readings of a payload by position that do not go through the model's own operations. -/

namespace Sys2Proof.Machine

/-- `s` after one response word `w` was delivered and nothing else happened. -/
def State.answered (s : State) (w : Word) : State := { s with responses := s.responses ++ [w] }

/-- The response word of a fault (R126), as spec/95 writes it: the code in `RSP[63:61]` and 0 below. -/
def faultWord (f : Fault) : Word :=
  match f with
  | .illegalOp => 0x2000000000000000
  | .badLength => 0x4000000000000000
  | .posOutOfRange => 0x6000000000000000
  | .syndromeOutOfRange => 0x8000000000000000

/-- The response word whose fields are those of `r` (R47): every field reads as `r` says and `RSP[44:39]` is 0. -/
def Carries (w : Word) (r : Response) : Prop := unpackResponse w = r ∧ rspZero w = 0

/-- The response reports a fault (R47, R54). -/
def isFaultWord (w : Word) : Bool := (unpackResponse w).fault != 0

/-- What R47, R53, R54, R108 and R126 say of every response word.
A fault code is one of 1 to 4 and stands alone; a completed response has a tag of R53 that agrees with `OVP` (R108), a length
the engine can have, a position not above it, and no payload bit at or above it. -/
def responseWellFormed (w : Word) : Bool :=
  let r := unpackResponse w
  rspZero w == 0 &&
    (if r.fault = 0 then
      r.status != 3 && (r.status != 0 || r.ovp == 0) && (r.status != 1 || r.ovp == 1) &&
        decide (4 ≤ r.n.toNat) && decide (r.n.toNat ≤ 71) && decide (r.pos.toNat ≤ r.n.toNat) &&
        decide (r.payload.toNat < 2 ^ r.n.toNat)
    else decide (r.fault.toNat ≤ 4) && r == { fault := r.fault, status := 0, ovp := 0, n := 0, pos := 0, payload := 0 })

/-- The invariant of a state: every response the engine has delivered is well formed. -/
abbrev State.Inv (s : State) : Prop := s.responses.all responseWellFormed = true

/-- No command so far faulted: the premise R126 gives a claim about a host's commands. -/
def State.noneFaulted (s : State) : Bool := s.responses.all (fun w => !isFaultWord w)

/-- What the input `x` is answered with when it is the first thing an instance sees after reset. -/
def firstResponses (c : Config) (x : Input) : List Word :=
  match step { State.reset with config := c, inputs := [x] } with
  | .next t => t.responses
  | _ => []

/-! Readings of a payload by position, from R8 and R32 alone. -/

/-- The bit at position `j` of a payload: bit `j-1` of the field (R32). -/
def positionBit (p : Payload) (j : Nat) : Bool := p.getLsbD (j - 1)

/-- How many positions of `1..hi` satisfy `sel` and hold a 1. -/
def countOnes (p : Payload) (hi : Nat) (sel : Nat → Bool) : Nat :=
  ((List.range' 1 hi).filter (fun j => sel j && positionBit p j)).length

/-- The XOR of the position numbers of `1..hi` that hold a 1 (R110). -/
def positionXor (p : Payload) (hi : Nat) : Nat :=
  ((List.range' 1 hi).filter (positionBit p)).foldr (· ^^^ ·) 0

/-- The payload with every bit at index `len` and above cleared (R52). -/
def cutPayload (p : Payload) (len : Nat) : Payload := p &&& BitVec.ofNat 39 (2 ^ len - 1)

/-- The end of the span of an instance's parity checks on a codeword of length `n` (R103). -/
def hiOf (s : State) (n : Nat) : Nat :=
  match s.config.decSpan with
  | .includeN => n
  | .excludeN => n - 1

/-- The syndrome of a payload read for data length `m`, in the closed form of R110. -/
def syndOf (s : State) (m : Nat) (p : Payload) : Nat :=
  positionXor p (hiOf s (totalLength m)) % 2 ^ parityCount m

/-- The number of 1s among the `n` positions of a payload read for data length `m`; `ovp` is its parity (R104). -/
def onesOf (m : Nat) (p : Payload) : Nat := countOnes p (totalLength m) (fun _ => true)

/-- The single-bit-error case of `decode` is reached with a syndrome that names no position (R107). -/
def SyndromeTooLarge (s : State) (m : Nat) (p : Payload) : Prop :=
  syndOf s m p ≠ 0 ∧ onesOf m p % 2 = 1 ∧ totalLength m < syndOf s m p

/-- Two command words agree on `OP` and on every bit their operation reads (R49, R52). -/
def SameReadBits (w v : Word) : Prop :=
  cmdOp w = cmdOp v ∧
    ((cmdOp w).toNat < 5 → cmdM w = cmdM v) ∧
    (cmdOp w = 1 → cutPayload (cmdPayload w) (cmdM w).toNat = cutPayload (cmdPayload v) (cmdM w).toNat) ∧
    (cmdOp w = 2 → cmdPos w = cmdPos v) ∧
    ((cmdOp w = 2 ∨ cmdOp w = 3 ∨ cmdOp w = 4) →
      cutPayload (cmdPayload w) (totalLength (cmdM w).toNat) = cutPayload (cmdPayload v) (totalLength (cmdM w).toNat))

/-- A valid codeword for data length `m` (R9): a string `encode` can produce. -/
def ValidCodeword (m : Nat) (c : BitString) : Prop := ∃ d : BitString, d.length = m ∧ c = encodeBits m d

/-- The bitwise XOR of two BitStrings of one length (R87). -/
def xorBits (a b : BitString) : BitString := List.zipWith Bool.xor a b

/-- The BitString with the positions of `E` flipped, one after another (R95). -/
def flipAll (c : BitString) (E : List Nat) : BitString := E.foldl flipBit c

end Sys2Proof.Machine
end

