-- ==== Sys2Proof/Certificates/Slice0/Obligations.lean ====
section
/-! DEFINITION. The statements for the provers, each a formalisation of rules of spec/ (the ids and cites stand in
OBLIGATIONS.json). -/

open Sys2Proof Sys2Proof.Machine

/-! ## The step, the command words (spec/30) -/

/-- R59, R4: one step handles the oldest input; a command that decodes is executed with its draw on `RND`, a command that does
not decode is answered with `IllegalOp`, a reset input drops out, and an engine with nothing to do stays as it is. -/
def Obligations.StepRunsTheDecodedCommand : Prop :=
  ∀ s : State,
    (s.inputs = [] → step s = .next s) ∧
    (∀ c rest, s.inputs = .reset c :: rest → step s = .next { s with inputs := rest }) ∧
    (∀ w d rest, s.inputs = .command w d :: rest →
      (∀ i, decodeCommand w = .ok i → step s = exec i { s with inputs := rest, rnd := d }) ∧
      (∀ e, decodeCommand w = .error e →
        step s = .next (State.answered { s with inputs := rest, rnd := d } 0x2000000000000000)))

/-- R121: a command whose bits 63:61 are 5, 6 or 7 is answered with `IllegalOp`, whatever its other bits are. -/
def Obligations.IllegalOpFaultsWhateverTheOtherFields : Prop :=
  ∀ (s : State) (w : Word) (d : Draw) (rest : List Input), s.inputs = .command w d :: rest → 5 ≤ w.toNat / 2 ^ 61 →
    step s = .next (State.answered { s with inputs := rest, rnd := d } 0x2000000000000000)

/-- R46, R48: the encoder and the decoder agree on every command that fits the format. -/
def Obligations.DecodeInvertsEncode : Prop :=
  ∀ i : Instr, i.wellFormed = true → decodeCommand (encodeCommand i) = .ok i

/-- R48, R55: every one of the `2^64` words selects exactly the operation its top three bits number, or none. -/
def Obligations.TopThreeBitsSelectTheOperation : Prop :=
  ∀ w : Word,
    (w.toNat / 2 ^ 61 < 5 →
      ∃ i, decodeCommand w = .ok i ∧ (opOf i).toNat = w.toNat / 2 ^ 61 ∧ i.wellFormed = true) ∧
    (5 ≤ w.toNat / 2 ^ 61 → ∃ op, decodeCommand w = .error (.illegalOp op) ∧ op.toNat = w.toNat / 2 ^ 61)

/-- R46, R48: command words of spec/95 decode to the commands they stand for. -/
def Obligations.WordsOfTheSpecDecode : Prop :=
  decodeTableWord 64 0x0400000000000000 = some (.totalLength 8) ∧
  decodeTableWord 64 0x2800000000000F53 = some (.encode 16 0xF53) ∧
  decodeTableWord 64 0x504E007074A1F517 = some (.injectAt 32 39 0x7074A1F517) ∧
  decodeTableWord 64 0x640A0000000004E5 = some (.injectRandom 8 0x4E5) ∧
  decodeTableWord 64 0x9000003F7FFFFFF4 = some (.decode 32 0x3F7FFFFFF4) ∧
  decodeTableWord 64 0x847EAAFFFFFFE4E5 = some (.decode 8 0x7FFFFFE4E5) ∧
  decodeTableWord 64 0xA400000000000000 = none

/-- R49, R52, R55: two commands that differ only in bits their operation does not read are handled alike, and the draw is read
by `inject_random` alone. -/
def Obligations.UnreadBitsNeverChangeTheAnswer : Prop :=
  ∀ (s : State) (w v : Word) (d : Draw) (rest : List Input),
    (SameReadBits w v →
      step { s with inputs := .command w d :: rest } = step { s with inputs := .command v d :: rest }) ∧
    (cmdOp w ≠ 3 → ∀ e : Draw, ∃ t u,
      step { s with inputs := .command w d :: rest } = .next t ∧
      step { s with inputs := .command w e :: rest } = .next u ∧ u = { t with rnd := e })

/-! ## Lengths and positions (spec/40) -/

/-- R65, on all integers: `i > 0` and exactly one set bit, which is being a power of two. -/
def Obligations.PowerOfTwoMeansOneSetBit : Prop :=
  (∀ i : Int, isPowerOfTwoInt i = true ↔ 0 < i ∧ ∃! k : Nat, i.toNat.testBit k = true) ∧
  (∀ i : Nat, isPowerOfTwo i = true ↔ ∃ k : Nat, i = 2 ^ k)

/-- R66: for every `m ≥ 1` the parity count is the least `r` with `2^r ≥ m + r + 1`. -/
def Obligations.ParityCountIsMinimal : Prop :=
  (∀ m : Nat, 1 ≤ m →
    m + parityCount m + 1 ≤ 2 ^ parityCount m ∧ ∀ k, k < parityCount m → 2 ^ k < m + k + 1) ∧
  parityCount 8 = 4 ∧ parityCount 16 = 5 ∧ parityCount 32 = 6

/-- R73: the table of parity counts and total lengths for `m = 1..64`. -/
def Obligations.LengthTable : Prop :=
  (List.range 64).map (fun k => (parityCount (k + 1), totalLength (k + 1))) =
    [(2, 4), (3, 6), (3, 7), (3, 8), (4, 10), (4, 11), (4, 12), (4, 13),
     (4, 14), (4, 15), (4, 16), (5, 18), (5, 19), (5, 20), (5, 21), (5, 22)] ++
    [(5, 23), (5, 24), (5, 25), (5, 26), (5, 27), (5, 28), (5, 29), (5, 30),
     (5, 31), (5, 32), (6, 34), (6, 35), (6, 36), (6, 37), (6, 38), (6, 39)] ++
    [(6, 40), (6, 41), (6, 42), (6, 43), (6, 44), (6, 45), (6, 46), (6, 47),
     (6, 48), (6, 49), (6, 50), (6, 51), (6, 52), (6, 53), (6, 54), (6, 55)] ++
    [(6, 56), (6, 57), (6, 58), (6, 59), (6, 60), (6, 61), (6, 62), (6, 63),
     (6, 64), (7, 66), (7, 67), (7, 68), (7, 69), (7, 70), (7, 71), (7, 72)]

/-- R74 (a) to (h), for every `m ≥ 1`. -/
def Obligations.CountingFacts : Prop :=
  ∀ m : Nat, 1 ≤ m →
    let r := parityCount m
    let n := totalLength m
    2 ≤ r ∧
    (2 ^ (r - 1) < n - 1 ∧ n - 1 < 2 ^ r) ∧
    (positions (n - 1)).filter isPowerOfTwo = parityPositions r ∧
    ((positions (n - 1)).filter (fun j => !isPowerOfTwo j)).length = m ∧
    (kind n (n - 1) = .data ∧ ∀ p ∈ parityPositions r, p ≤ n - 2) ∧
    (n ≤ 2 ^ r ∧ (n = 2 ^ r ↔ m = 2 ^ r - r - 1) ∧
      (n < 2 ^ r → n &&& (2 ^ r - 1) = n ∧ ∃ p ∈ parityPositions r, covers p n = true) ∧
      (n = 2 ^ r → ∀ p ∈ parityPositions r, covers p n = false) ∧
      (m ∈ supportedM → n < 2 ^ r)) ∧
    (∀ m', m < m' → n < totalLength m' ∧ r ≤ parityCount m') ∧
    ((∀ j, 1 ≤ j → j ≤ n → j ≤ 2 ^ r) ∧
      (∀ j, 1 ≤ j → j ≤ n - 1 →
        j < 2 ^ r ∧ ((parityPositions r).filter (fun p => covers p j)).foldr (· ||| ·) 0 = j) ∧
      (∀ j k, 1 ≤ j → j ≤ n - 1 → 1 ≤ k → k ≤ n - 1 → j ≠ k →
        ∃ p ∈ parityPositions r, covers p j ≠ covers p k))

/-- R36: the map of the position space, by kind for every `m ≥ 1`, and in full for the supported lengths. -/
def Obligations.PositionMap : Prop :=
  (∀ m j : Nat, 1 ≤ m → 1 ≤ j → j ≤ totalLength m →
    (kind (totalLength m) j = .overall ↔ j = totalLength m) ∧
    (kind (totalLength m) j = .parity ↔ j < totalLength m ∧ ∃ k : Nat, j = 2 ^ k) ∧
    (kind (totalLength m) j = .data ↔ j < totalLength m ∧ ¬ ∃ k : Nat, j = 2 ^ k)) ∧
  (parityCount 8 = 4 ∧ totalLength 8 = 13 ∧ parityPositions 4 = [1, 2, 4, 8] ∧
    dataPositions 13 = [3, 5, 6, 7, 9, 10, 11, 12]) ∧
  (parityCount 16 = 5 ∧ totalLength 16 = 22 ∧ parityPositions 5 = [1, 2, 4, 8, 16] ∧
    dataPositions 22 = [3, 5, 6, 7, 9, 10, 11, 12, 13, 14, 15, 17, 18, 19, 20, 21]) ∧
  (parityCount 32 = 6 ∧ totalLength 32 = 39 ∧ parityPositions 6 = [1, 2, 4, 8, 16, 32] ∧
    dataPositions 39 = [3, 5, 6, 7] ++ List.range' 9 7 ++ List.range' 17 15 ++ List.range' 33 6)

/-- R70: `dpos(k)` is the `k`-th smallest position of `1..n-1` that is not a power of two, for every `k` in `1..m`. -/
def Obligations.DataPositionsInOrder : Prop :=
  (∀ m k : Nat, 1 ≤ m → 1 ≤ k → k ≤ m →
    ∃ j, dpos m k = some j ∧ 1 ≤ j ∧ j ≤ totalLength m - 1 ∧ (∀ e : Nat, j ≠ 2 ^ e) ∧
      ((List.range' 1 (j - 1)).filter (fun i => !isPowerOfTwo i)).length = k - 1) ∧
  (∀ m : Nat, 1 ≤ m → (dataPositions (totalLength m)).length = m) ∧
  (dataPositions (totalLength 12)) = [3, 5, 6, 7, 9, 10, 11, 12, 13, 14, 15, 17]

/-- R71: the coverage sets, the facts about them, and the table for the supported lengths. -/
def Obligations.CoverageSets : Prop :=
  (∀ i hi j : Nat, (j ∈ cover (2 ^ i) hi ↔ 1 ≤ j ∧ j ≤ hi ∧ j &&& 2 ^ i ≠ 0) ∧
    (j ∈ cover (2 ^ i) hi ↔ 1 ≤ j ∧ j ≤ hi ∧ j.testBit i = true)) ∧
  (∀ i hi : Nat, 2 ^ i ≤ hi → 2 ^ i ∈ cover (2 ^ i) hi) ∧
  (∀ i k hi : Nat, i ≠ k → 2 ^ k ∉ cover (2 ^ i) hi) ∧
  (∀ i n : Nat, 1 ≤ n → ((n ∈ cover (2 ^ i) n ↔ n &&& 2 ^ i ≠ 0) ∧ n ∉ cover (2 ^ i) (n - 1))) ∧
  (cover 1 13 = [1, 3, 5, 7, 9, 11, 13] ∧ cover 2 13 = [2, 3, 6, 7, 10, 11] ∧
    cover 4 13 = [4, 5, 6, 7, 12, 13] ∧ cover 8 13 = [8, 9, 10, 11, 12, 13]) ∧
  (cover 1 22 = [1, 3, 5, 7, 9, 11, 13, 15, 17, 19, 21] ∧
    cover 2 22 = [2, 3, 6, 7, 10, 11, 14, 15, 18, 19, 22] ∧
    cover 4 22 = [4, 5, 6, 7, 12, 13, 14, 15, 20, 21, 22] ∧
    cover 8 22 = List.range' 8 8 ∧ cover 16 22 = List.range' 16 7) ∧
  (cover 1 39 = (List.range 20).map (fun k => 2 * k + 1) ∧
    cover 2 39 = [2, 3, 6, 7, 10, 11, 14, 15, 18, 19, 22, 23, 26, 27, 30, 31, 34, 35, 38, 39] ∧
    cover 4 39 = List.range' 4 4 ++ List.range' 12 4 ++ List.range' 20 4 ++ List.range' 28 4 ++ List.range' 36 4 ∧
    cover 8 39 = List.range' 8 8 ++ List.range' 24 8 ∧ cover 16 39 = List.range' 16 16 ∧
    cover 32 39 = List.range' 32 8)

/-- R67: `total_length` completes for every `m` in `1..63` with `N = m + r + 1` for the least `r` with `2^r ≥ m + r + 1` and
every other field 0, and answers `BadLength` for `m = 0`. -/
def Obligations.TotalLengthCompletes : Prop :=
  (∀ (s : State) (m : Nat), 1 ≤ m → m ≤ 63 →
    ∃ (r : Nat) (w : Word), m + r + 1 ≤ 2 ^ r ∧ (∀ k, k < r → 2 ^ k < m + k + 1) ∧ m + r + 1 < 2 ^ 7 ∧
      exec (.totalLength m) s = .next (s.answered w) ∧
      Carries w { fault := 0, status := 0, ovp := 0, n := BitVec.ofNat 7 (m + r + 1), pos := 0, payload := 0 }) ∧
  (∀ s : State, exec (.totalLength 0) s = .next (s.answered 0x4000000000000000)) ∧
  (∀ w : Word, w.toNat / 2 ^ 61 = 0 → decodeCommand w = .ok (.totalLength (w.toNat / 2 ^ 55 % 2 ^ 6))) ∧
  (totalLength 1 = 4 ∧ totalLength 4 = 8 ∧ totalLength 11 = 16 ∧ totalLength 26 = 32 ∧ totalLength 57 = 64 ∧
    totalLength 63 = 71) ∧
  (∀ c : Config, ∀ d : Draw, firstResponses c (.command 0x0400000000000000 d) = [0x0068000000000000])

/-- R122: `total_length` of 0, and every other operation with an `m` outside 8, 16 and 32, is answered with `BadLength`. -/
def Obligations.BadLengthFaults : Prop :=
  ∀ s : State,
    exec (.totalLength 0) s = .next (s.answered 0x4000000000000000) ∧
    ∀ (m pos : Nat) (p : Payload), m ≠ 8 → m ≠ 16 → m ≠ 32 →
      exec (.encode m p) s = .next (s.answered 0x4000000000000000) ∧
      exec (.injectAt m pos p) s = .next (s.answered 0x4000000000000000) ∧
      exec (.injectRandom m p) s = .next (s.answered 0x4000000000000000) ∧
      exec (.decode m p) s = .next (s.answered 0x4000000000000000)

/-! ## encode (spec/41) -/

/-- R80 to R85: `encode` completes for every supported length and every payload: the data bits stand at the data positions in
order, each parity position holds the XOR of the other positions it covers up to `n-1`, position `n` holds the XOR of all before
it, and every other field and bit is 0. -/
def Obligations.EncodeCompletes : Prop :=
  ∀ (s : State) (m : Nat) (p : Payload), (m = 8 ∨ m = 16 ∨ m = 32) →
    ∃ (w : Word) (q : Payload), exec (.encode m p) s = .next (s.answered w) ∧
      Carries w { fault := 0, status := 0, ovp := 0, n := BitVec.ofNat 7 (totalLength m), pos := 0, payload := q } ∧
      (∀ k j, dpos m k = some j → positionBit q j = positionBit p k) ∧
      (∀ i, i < parityCount m →
        positionBit q (2 ^ i) =
          decide (countOnes q (totalLength m - 1) (fun j => j.testBit i && j != 2 ^ i) % 2 = 1)) ∧
      positionBit q (totalLength m) = decide (countOnes q (totalLength m - 1) (fun _ => true) % 2 = 1) ∧
      (∀ j, totalLength m < j → positionBit q j = false)

/-- R86 (a) to (d), R75, for every `m ≥ 1`: the length, the parity and overall invariants of a fresh codeword, and the data bits
unchanged at their positions. -/
def Obligations.FreshCodewordInvariants : Prop :=
  ∀ (m : Nat) (d : BitString), 1 ≤ m → d.length = m →
    (encodeBits m d).length = totalLength m ∧
    (∀ i, i < parityCount m →
      readSlot (encodeBits m d) (2 ^ i) =
        xorOver (encodeBits m d) ((cover (2 ^ i) (totalLength m - 1)).filter (fun j => j != 2 ^ i))) ∧
    readSlot (encodeBits m d) (totalLength m) = xorOver (encodeBits m d) (positions (totalLength m - 1)) ∧
    extractData (encodeBits m d) = d

/-- R81, R82, R84, R85, for every `m ≥ 1`: what each step of `encode` leaves, and that the parity stores may run in any order. -/
def Obligations.EncoderSteps : Prop :=
  ∀ (m : Nat) (d : BitString), 1 ≤ m → d.length = m →
    let r := parityCount m
    let n := totalLength m
    let a := allocate n
    let b := placeData (positions (n - 1)) d a
    let c := storeParities r n b
    let e := storeOverall n c
    (a.length = n ∧ ∀ j, 1 ≤ j → j ≤ n → readSlot a j = false) ∧
    ((∀ k, 1 ≤ k → k ≤ m → (dpos m k).isSome = true) ∧
      (∀ k j, dpos m k = some j → 1 ≤ k ∧ k ≤ m ∧ readSlot b j = readSlot d k) ∧
      ∀ j, ((∃ i : Nat, j = 2 ^ i) ∨ j = n) → readSlot b j = false) ∧
    ((∀ i, i < r →
        readSlot c (2 ^ i) = xorOver b ((cover (2 ^ i) (n - 1)).filter (fun j => j != 2 ^ i)) ∧
        chk c (2 ^ i) (n - 1) = false) ∧
      (∀ j, (∀ i, i < r → j ≠ 2 ^ i) → readSlot c j = readSlot b j) ∧
      (∀ L : List Nat, L.Perm (List.range r) → L.foldl (storeParity n) b = c)) ∧
    (readSlot e n = xorOver c (positions (n - 1)) ∧ (∀ j, j ≠ n → readSlot e j = readSlot c j) ∧
      xorOver e (positions n) = false) ∧
    encodeBits m d = e

/-- R83: a check is 1 exactly when an odd number of the covered slots hold 1, slot `p` among them. -/
def Obligations.CheckIsTheOddnessOfCoveredOnes : Prop :=
  ∀ (cw : BitString) (i hi : Nat),
    chk cw (2 ^ i) hi =
      decide (((List.range' 1 hi).filter (fun j => j.testBit i && readSlot cw j)).length % 2 = 1) ∧
    (2 ^ i ≤ hi → 2 ^ i ∈ cover (2 ^ i) hi)

/-- R87: a string of length `n` is a valid codeword exactly when every check over `1..n-1` and the XOR of all bits are 0, and then
it is the codeword of its own data bits. -/
def Obligations.ValidCodewordsAreThoseThatPassTheChecks : Prop :=
  ∀ (m : Nat) (c : BitString), 1 ≤ m → c.length = totalLength m →
    (ValidCodeword m c ↔
      (∀ i, i < parityCount m → chk c (2 ^ i) (totalLength m - 1) = false) ∧
        xorOver c (positions (totalLength m)) = false) ∧
    (ValidCodeword m c → c = encodeBits m (extractData c))

/-- R87: `encode` and the checks are linear over XOR. -/
def Obligations.EncodeIsLinear : Prop :=
  (∀ (m : Nat) (a b : BitString), 1 ≤ m → a.length = m → b.length = m →
    encodeBits m (xorBits a b) = xorBits (encodeBits m a) (encodeBits m b)) ∧
  (∀ (a b : BitString) (p hi : Nat), a.length = b.length →
    chk (xorBits a b) p hi = (chk a p hi ^^ chk b p hi))

/-- R88: the worked detail of `encode("10110010")`, step by step. -/
def Obligations.WorkedEncoding : Prop :=
  let data : BitString := [true, false, true, true, false, false, true, false]
  let placed : BitString :=
    [false, false, true, false, false, true, true, false, false, false, true, false, false]
  let one : BitString :=
    [true, false, true, false, false, true, true, false, false, false, true, false, false]
  let last : BitString :=
    [true, false, true, false, false, true, true, true, false, false, true, false, false]
  parityCount 8 = 4 ∧ totalLength 8 = 13 ∧
  allocate 13 = List.replicate 13 false ∧
  placeData (positions 12) data (allocate 13) = placed ∧
  storeParity 13 placed 0 = one ∧ storeParity 13 one 1 = one ∧ storeParity 13 one 2 = one ∧
  storeParity 13 one 3 = last ∧ storeParities 4 13 placed = last ∧
  storeOverall 13 last = last ∧ encodeBits 8 data = last

/-! ## inject_at and inject_random (spec/42) -/

/-- R90: `flip` inverts the bit at `q`, keeps every other bit and the length, undoes itself, and is an XOR with `2^(q-1)` on the
packed field. -/
def Obligations.FlipInvertsOneBit : Prop :=
  ∀ (c : BitString) (q : Nat), 1 ≤ q → q ≤ c.length →
    (flipBit c q).length = c.length ∧
    readSlot (flipBit c q) q = !readSlot c q ∧
    (∀ j, j ≠ q → readSlot (flipBit c q) j = readSlot c j) ∧
    flipBit (flipBit c q) q = c ∧
    (c.length ≤ 39 → payloadOfBits (flipBit c q) = payloadOfBits c ^^^ BitVec.ofNat 39 (2 ^ (q - 1)))

/-- R91: `inject_at` completes for every supported length, every payload and every position of `1..n`: `N`, the position, and the
low `n` bits of the payload with bit `pos - 1` inverted. -/
def Obligations.InjectAtCompletes : Prop :=
  ∀ (s : State) (m pos : Nat) (p : Payload), (m = 8 ∨ m = 16 ∨ m = 32) → 1 ≤ pos → pos ≤ totalLength m →
    ∃ w : Word, exec (.injectAt m pos p) s = .next (s.answered w) ∧
      Carries w
        { fault := 0, status := 0, ovp := 0, n := BitVec.ofNat 7 (totalLength m), pos := BitVec.ofNat 6 pos,
          payload := cutPayload p (totalLength m) ^^^ BitVec.ofNat 39 (2 ^ (pos - 1)) }

/-- R92: `inject_random` completes for every supported length, every payload and every draw of `1..n`, with the draw as the
position; every position of `1..n` is some draw. -/
def Obligations.InjectRandomCompletes : Prop :=
  ∀ (m : Nat) (p : Payload), (m = 8 ∨ m = 16 ∨ m = 32) →
    (∀ s : State, 1 ≤ s.rnd.toNat → s.rnd.toNat ≤ totalLength m →
      ∃ w : Word, exec (.injectRandom m p) s = .next (s.answered w) ∧
        Carries w
          { fault := 0, status := 0, ovp := 0, n := BitVec.ofNat 7 (totalLength m), pos := s.rnd,
            payload := cutPayload p (totalLength m) ^^^ BitVec.ofNat 39 (2 ^ (s.rnd.toNat - 1)) }) ∧
    (∀ q, 1 ≤ q → q ≤ totalLength m → ∃ d : Draw, d.toNat = q)

/-- R92, R94: given the draw, `inject_random` is `inject_at` at that position. -/
def Obligations.InjectRandomIsInjectAtGivenTheDraw : Prop :=
  ∀ (s : State) (m : Nat) (p : Payload), exec (.injectRandom m p) s = exec (.injectAt m s.rnd.toNat p) s

/-- R93: when an injection completes its codeword differs from the command's in exactly the one position it names; when it faults
nothing is flipped and no codeword is returned. -/
def Obligations.InjectionFlipsExactlyOneBit : Prop :=
  ∀ (s t : State) (m pos : Nat) (p : Payload) (i : Instr), (i = .injectAt m pos p ∨ i = .injectRandom m p) →
    exec i s = .next t →
    ∃ w : Word, t = s.answered w ∧
      (isFaultWord w = false →
        (unpackResponse w).n.toNat = totalLength m ∧
        1 ≤ (unpackResponse w).pos.toNat ∧ (unpackResponse w).pos.toNat ≤ totalLength m ∧
        (∀ j, 1 ≤ j → j ≤ totalLength m →
          (positionBit (unpackResponse w).payload j ≠ positionBit p j ↔ j = (unpackResponse w).pos.toNat)) ∧
        (∀ j, totalLength m < j → positionBit (unpackResponse w).payload j = false)) ∧
      (isFaultWord w = true → (unpackResponse w).payload = 0 ∧ (unpackResponse w).pos = 0)

/-- R91, R95: injecting twice at one position, the second time into the first result, gives the low `n` bits sent at first. -/
def Obligations.InjectingTwiceRestores : Prop :=
  ∀ (s t : State) (m pos : Nat) (p : Payload), (m = 8 ∨ m = 16 ∨ m = 32) → 1 ≤ pos → pos ≤ totalLength m →
    ∃ w v : Word, exec (.injectAt m pos p) s = .next (s.answered w) ∧
      exec (.injectAt m pos (unpackResponse w).payload) t = .next (t.answered v) ∧
      (unpackResponse v).payload = cutPayload p (totalLength m) ∧ (unpackResponse v).fault = 0

/-- R123: a position, or a draw, of 0 or above `n` is answered with `PosOutOfRange`. -/
def Obligations.PosOutOfRangeFaults : Prop :=
  ∀ (s : State) (m pos : Nat) (p : Payload), (m = 8 ∨ m = 16 ∨ m = 32) →
    ((pos = 0 ∨ totalLength m < pos) →
      exec (.injectAt m pos p) s = .next (s.answered 0x6000000000000000)) ∧
    ((s.rnd.toNat = 0 ∨ totalLength m < s.rnd.toNat) →
      exec (.injectRandom m p) s = .next (s.answered 0x6000000000000000))

/-! ## decode (spec/43) -/

/-- R100 to R108: unless the syndrome is too large to name a position, `decode` completes for every supported length, every payload
and either span; the tag, `OVP` and the codeword are those of the table of R105, with the syndrome in the closed form of R110. -/
def Obligations.DecodeCompletes : Prop :=
  ∀ (s : State) (m : Nat) (p : Payload), (m = 8 ∨ m = 16 ∨ m = 32) → ¬ SyndromeTooLarge s m p →
    ∃ w : Word, exec (.decode m p) s = .next (s.answered w) ∧
      Carries w
        { fault := 0
          status :=
            if syndOf s m p = 0 ∧ onesOf m p % 2 = 0 then 0
            else if syndOf s m p ≠ 0 ∧ onesOf m p % 2 = 1 then 1
            else 2
          ovp := BitVec.ofNat 1 (onesOf m p % 2)
          n := BitVec.ofNat 7 (totalLength m)
          pos := 0
          payload :=
            if syndOf s m p ≠ 0 ∧ onesOf m p % 2 = 1 then
              cutPayload p (totalLength m) ^^^ BitVec.ofNat 39 (2 ^ (syndOf s m p - 1))
            else cutPayload p (totalLength m) }

/-- R124: `decode` with a nonzero syndrome above `n` and overall parity 1 is answered with `SyndromeOutOfRange`. -/
def Obligations.SyndromeOutOfRangeFaults : Prop :=
  ∀ (s : State) (m : Nat) (p : Payload), (m = 8 ∨ m = 16 ∨ m = 32) → SyndromeTooLarge s m p →
    exec (.decode m p) s = .next (s.answered 0x8000000000000000)

/-- R102: the syndrome is the OR of the failing parity positions, and the check of `p` fails exactly when the XOR of the other
covered positions differs from the stored bit; the scenario that rejects the other reading decodes as no error. -/
def Obligations.SyndromeIsTheOrOfFailingChecks : Prop :=
  (∀ (code : BitString) (r hi : Nat),
    syndrome code r hi < 2 ^ r ∧
    (∀ i, i < r → (syndrome code r hi).testBit i = chk code (2 ^ i) hi) ∧
    (∀ i, i < r → 2 ^ i ≤ hi →
      (chk code (2 ^ i) hi = true ↔
        xorOver code ((cover (2 ^ i) hi).filter (fun j => j != 2 ^ i)) ≠ readSlot code (2 ^ i)))) ∧
  (∀ c : Config, ∀ d : Draw, firstResponses c (.command 0x84000000000004E5 d) = [0x00680000000004E5])

/-- R104: the overall parity is 1 exactly when the input has an odd number of 1s, and is 0 for a valid codeword. -/
def Obligations.OverallParityIsTheOddnessOfOnes : Prop :=
  (∀ (code : BitString) (n : Nat),
    overallParity code n = decide (((List.range' 1 n).filter (readSlot code)).length % 2 = 1)) ∧
  (∀ (m : Nat) (c : BitString), 1 ≤ m → ValidCodeword m c → overallParity c (totalLength m) = false)

/-- R105: the classification and the result codeword, case by case. -/
def Obligations.ClassificationTable : Prop :=
  ∀ (code : BitString) (n synd : Nat),
    correct code n 0 false = .ok (.noError, code) ∧
    (synd ≠ 0 → synd ≤ n → correct code n synd true = .ok (.singleCorrected, flipBit code synd)) ∧
    (synd ≠ 0 → correct code n synd false = .ok (.doubleUncorrectable, code)) ∧
    correct code n 0 true = .ok (.doubleUncorrectable, code)

/-- R110: the closed form of the syndrome, and what it gives for a valid codeword with the positions of `E` flipped. -/
def Obligations.SyndromeClosedForm : Prop :=
  (∀ (m hi : Nat) (w : BitString), 1 ≤ m → w.length = totalLength m →
    (hi = totalLength m ∨ hi = totalLength m - 1) →
    syndrome w (parityCount m) hi =
      ((positions hi).filter (readSlot w)).foldr (· ^^^ ·) 0 &&& (2 ^ parityCount m - 1)) ∧
  (∀ (m : Nat) (c : BitString) (E : List Nat), 1 ≤ m → ValidCodeword m c → E.Nodup →
    (∀ j ∈ E, 1 ≤ j ∧ j ≤ totalLength m) →
    syndrome (flipAll c E) (parityCount m) (totalLength m - 1) =
      (E.filter (fun j => decide (j < totalLength m))).foldr (· ^^^ ·) 0 ∧
    syndrome (flipAll c E) (parityCount m) (totalLength m) =
      ((E.filter (fun j => decide (j < totalLength m))).foldr (· ^^^ ·) 0 ^^^
        (if readSlot (flipAll c E) (totalLength m) then totalLength m &&& (2 ^ parityCount m - 1) else 0)) ∧
    overallParity (flipAll c E) (totalLength m) = decide (E.length % 2 = 1) ∧
    readSlot (flipAll c E) (totalLength m) = (readSlot c (totalLength m) ^^ decide (totalLength m ∈ E)))

/-- R103: the two spans differ only on inputs whose position `n` holds a 1, and only where `n < 2^r`. -/
def Obligations.SpansDifferOnlyThroughPositionN : Prop :=
  ∀ (m : Nat) (w : BitString), 1 ≤ m → w.length = totalLength m →
    (readSlot w (totalLength m) = false ∨ totalLength m = 2 ^ parityCount m) →
    decodeBits .includeN m w = decodeBits .excludeN m w

/-- R111, first column, for every `m ≥ 1`: under `EXCLUDE_N` a valid codeword is no error, one flip before `n` is corrected, and a
flip of position `n` is reported uncorrectable and left. -/
def Obligations.OneFlipUnderExcludeN : Prop :=
  ∀ (m : Nat) (c : BitString), 1 ≤ m → ValidCodeword m c →
    decodeBits .excludeN m c = .ok (.decoded (totalLength m) .noError false c) ∧
    (∀ q, 1 ≤ q → q < totalLength m →
      decodeBits .excludeN m (flipBit c q) = .ok (.decoded (totalLength m) .singleCorrected true c)) ∧
    decodeBits .excludeN m (flipBit c (totalLength m)) =
      .ok (.decoded (totalLength m) .doubleUncorrectable true (flipBit c (totalLength m)))

/-- R111, second column: under `INCLUDE_N` a valid codeword with overall bit 0 decodes as no error and every single flip of it is
corrected. -/
def Obligations.OneFlipUnderIncludeNOverallZero : Prop :=
  ∀ (m : Nat) (c : BitString), 1 ≤ m → totalLength m < 2 ^ parityCount m → ValidCodeword m c →
    readSlot c (totalLength m) = false →
    decodeBits .includeN m c = .ok (.decoded (totalLength m) .noError false c) ∧
    (∀ q, 1 ≤ q → q ≤ totalLength m →
      decodeBits .includeN m (flipBit c q) = .ok (.decoded (totalLength m) .singleCorrected true c))

/-- R111, third column: under `INCLUDE_N` a valid codeword with overall bit 1 is reported uncorrectable, and no single flip of it is
corrected: the wrong bit is flipped, or the syndrome names no position, or it is reported uncorrectable. -/
def Obligations.OneFlipUnderIncludeNOverallOne : Prop :=
  (∀ (m : Nat) (c : BitString), 1 ≤ m → totalLength m < 2 ^ parityCount m → ValidCodeword m c →
    readSlot c (totalLength m) = true →
    decodeBits .includeN m c = .ok (.decoded (totalLength m) .doubleUncorrectable false c) ∧
    (∀ q, 1 ≤ q → q < totalLength m →
      (q ^^^ totalLength m ≤ totalLength m →
        decodeBits .includeN m (flipBit c q) =
          .ok (.decoded (totalLength m) .singleCorrected true (flipBit (flipBit c q) (q ^^^ totalLength m)))) ∧
      (totalLength m < q ^^^ totalLength m →
        decodeBits .includeN m (flipBit c q) = .error .syndromeOutOfRange)) ∧
    decodeBits .includeN m (flipBit c (totalLength m)) =
      .ok (.decoded (totalLength m) .doubleUncorrectable true (flipBit c (totalLength m)))) ∧
  (positions 12).filter (fun q => decide (13 < q ^^^ 13)) = [2, 3] ∧
  (positions 21).filter (fun q => decide (22 < q ^^^ 22)) = [1, 8, 9, 10, 11, 12, 13, 14, 15] ∧
  (positions 38).filter (fun q => decide (39 < q ^^^ 39)) = List.range' 8 24

/-- R112, first two rows: under `EXCLUDE_N`, and under `INCLUDE_N` when the overall bit is 0, every double error is reported
uncorrectable and the input is returned unchanged. -/
def Obligations.DoubleErrorsAreDetected : Prop :=
  ∀ (m a b : Nat) (c : BitString), 1 ≤ m → totalLength m < 2 ^ parityCount m → ValidCodeword m c →
    1 ≤ a → a < b → b ≤ totalLength m →
    decodeBits .excludeN m (flipBit (flipBit c a) b) =
      .ok (.decoded (totalLength m) .doubleUncorrectable false (flipBit (flipBit c a) b)) ∧
    (readSlot c (totalLength m) = false →
      decodeBits .includeN m (flipBit (flipBit c a) b) =
        .ok (.decoded (totalLength m) .doubleUncorrectable false (flipBit (flipBit c a) b)))

/-- R112, last two rows: under `INCLUDE_N` with overall bit 1 a double error is reported as no error exactly when neither position is
`n` and the two XOR to `n`; else it is reported uncorrectable. -/
def Obligations.DoubleErrorsThatEscapeUnderIncludeN : Prop :=
  (∀ (m a b : Nat) (c : BitString), 1 ≤ m → totalLength m < 2 ^ parityCount m → ValidCodeword m c →
    readSlot c (totalLength m) = true → 1 ≤ a → a < b → b ≤ totalLength m →
    decodeBits .includeN m (flipBit (flipBit c a) b) =
      .ok (.decoded (totalLength m)
        (if b < totalLength m ∧ a ^^^ b = totalLength m then .noError else .doubleUncorrectable) false
        (flipBit (flipBit c a) b))) ∧
  (List.flatMap (fun a => ((positions 12).filter (fun b => decide (a < b ∧ a ^^^ b = 13))).map (fun b => (a, b)))
    (positions 12)) = [(1, 12), (4, 9), (5, 8), (6, 11), (7, 10)]

/-- R113, R107: three flips of the scenario codeword are miscorrected, reported uncorrectable or fault, and four are reported
uncorrectable, under either span. -/
def Obligations.MoreThanTwoFlipsOfTheScenarioCodeword : Prop :=
  ∀ c : Config, ∀ d : Draw,
    firstResponses c (.command 0x84000000000004EE d) = [0x0C680000000004AE] ∧
    firstResponses c (.command 0x84000000000004D1 d) = [0x14680000000004D1] ∧
    firstResponses c (.command 0x8400000000000CE6 d) = [0x8000000000000000] ∧
    firstResponses c (.command 0x84000000000004EA d) = [0x10680000000004EA]

/-! ## The pipeline of the host (R58, R114) -/

/-- R114 P2: encode, then decode with the same `m`; encode reports no fault.
Under `EXCLUDE_N` always no error; under `INCLUDE_N` exactly when the overall bit is 0, else uncorrectable; the codeword is returned
unchanged either way. -/
def Obligations.RoundTripWithoutError : Prop :=
  ∀ (s t : State) (m : Nat) (p : Payload), (m = 8 ∨ m = 16 ∨ m = 32) →
    ∃ (w v : Word), exec (.encode m p) s = .next (s.answered w) ∧ (unpackResponse w).fault = 0 ∧
      exec (.decode m (unpackResponse w).payload) t = .next (t.answered v) ∧
      Carries v
        { fault := 0
          status :=
            if t.config.decSpan = .includeN ∧ positionBit (unpackResponse w).payload (totalLength m) = true then 2 else 0
          ovp := 0
          n := BitVec.ofNat 7 (totalLength m)
          pos := 0
          payload := (unpackResponse w).payload }

/-- R114 P3: encode, inject at `q`, decode; the first two report no fault.
The fresh codeword comes back with the tag `SINGLE_CORRECTED` for every `q` in `1..n-1` under `EXCLUDE_N`, and for every `q` in
`1..n` under `INCLUDE_N` when the overall bit is 0. -/
def Obligations.PipelineCorrectsOneInjectedError : Prop :=
  ∀ (s t u : State) (m q : Nat) (p : Payload), (m = 8 ∨ m = 16 ∨ m = 32) → 1 ≤ q → q ≤ totalLength m →
    ∃ (w x v : Word), exec (.encode m p) s = .next (s.answered w) ∧ (unpackResponse w).fault = 0 ∧
      exec (.injectAt m q (unpackResponse w).payload) t = .next (t.answered x) ∧ (unpackResponse x).fault = 0 ∧
      exec (.decode m (unpackResponse x).payload) u = .next (u.answered v) ∧
      ((u.config.decSpan = .excludeN ∧ q < totalLength m ∨
          u.config.decSpan = .includeN ∧ positionBit (unpackResponse w).payload (totalLength m) = false) →
        Carries v
          { fault := 0, status := 1, ovp := 1, n := BitVec.ofNat 7 (totalLength m), pos := 0,
            payload := (unpackResponse w).payload })

/-- R114 P8 and R112 on the machine: encode, inject at two positions, decode; the first three report no fault.
Under `EXCLUDE_N`, and under `INCLUDE_N` when the overall bit is 0, the tag is `DOUBLE_UNCORRECTABLE` and the corrupted word comes
back as it was. -/
def Obligations.PipelineDetectsTwoInjectedErrors : Prop :=
  ∀ (s t u v : State) (m a b : Nat) (p : Payload), (m = 8 ∨ m = 16 ∨ m = 32) → 1 ≤ a → a < b → b ≤ totalLength m →
    ∃ (w x y z : Word), exec (.encode m p) s = .next (s.answered w) ∧ (unpackResponse w).fault = 0 ∧
      exec (.injectAt m a (unpackResponse w).payload) t = .next (t.answered x) ∧ (unpackResponse x).fault = 0 ∧
      exec (.injectAt m b (unpackResponse x).payload) u = .next (u.answered y) ∧ (unpackResponse y).fault = 0 ∧
      exec (.decode m (unpackResponse y).payload) v = .next (v.answered z) ∧
      ((v.config.decSpan = .excludeN ∨ positionBit (unpackResponse w).payload (totalLength m) = false) →
        Carries z
          { fault := 0, status := 2, ovp := 0, n := BitVec.ofNat 7 (totalLength m), pos := 0,
            payload := (unpackResponse y).payload })

/-! ## Faults and the machine as a whole (spec/10, 20, 60, 70) -/

/-- R125: the fault code of the response to every command word with every draw: `IllegalOp`, then `BadLength`, then the operation's
own fault, else 0. -/
def Obligations.FaultPriority : Prop :=
  ∀ (s : State) (w : Word) (d : Draw) (rest : List Input), s.inputs = .command w d :: rest →
    ∃ v : Word, step s = .next (State.answered { s with inputs := rest, rnd := d } v) ∧
      (unpackResponse v).fault =
        (if 5 ≤ (cmdOp w).toNat then 1
        else if (if cmdOp w = 0 then cmdM w = 0 else cmdM w ≠ 8 ∧ cmdM w ≠ 16 ∧ cmdM w ≠ 32) then 2
        else if (cmdOp w = 2 ∧ (cmdPos w = 0 ∨ totalLength (cmdM w).toNat < (cmdPos w).toNat)) ∨
            (cmdOp w = 3 ∧ (d = 0 ∨ totalLength (cmdM w).toNat < d.toNat)) then 3
        else if cmdOp w = 4 ∧ syndOf s (cmdM w).toNat (cmdPayload w) ≠ 0 ∧
            onesOf (cmdM w).toNat (cmdPayload w) % 2 = 1 ∧
            totalLength (cmdM w).toNat < syndOf s (cmdM w).toNat (cmdPayload w) then 4
        else 0)

/-- R126: a faulted command has one effect, the response that holds its code and nothing else. -/
def Obligations.FaultedResponseIsTheCodeAlone : Prop :=
  ∀ (s t : State) (w : Word), step s = .next t → t.responses = s.responses ++ [w] → isFaultWord w = true →
    (w = 0x2000000000000000 ∨ w = 0x4000000000000000 ∨ w = 0x6000000000000000 ∨ w = 0x8000000000000000) ∧
    t.config = s.config ∧ t.inputs = s.inputs.tail

/-- R47, R53, R54, R108, R126: every step keeps every delivered response well formed. -/
def Obligations.EveryStepKeepsResponsesWellFormed : Prop :=
  ∀ (s t : State), s.Inv → step s = .next t → t.Inv

/-- The state after reset meets the invariant. -/
def Obligations.ResetMeetsTheInvariant : Prop := State.reset.Inv

/-- R4, R151: every input is handled in one step, whatever it is: a command gives exactly one response, a reset input none, and the
instance's constant never changes (R14). -/
def Obligations.EveryInputIsHandledInOneStep : Prop :=
  ∀ s : State, ∃ t : State, step s = .next t ∧ t.inputs = s.inputs.tail ∧ t.config = s.config ∧
    (match s.inputs with
      | .command _ _ :: _ => ∃ w : Word, t.responses = s.responses ++ [w]
      | _ => t.responses = s.responses)

/-- R10, R14, R18, R40: what each operation leaves unchanged: the constant, the inputs to come, the level on `RND` and every response
delivered before; it delivers one response. -/
def Obligations.FrameOfEveryOperation : Prop :=
  ∀ (i : Instr) (s t : State), exec i s = .next t →
    t.config = s.config ∧ t.inputs = s.inputs ∧ t.rnd = s.rnd ∧ ∃ w : Word, t.responses = s.responses ++ [w]

/-- R94, R103, R10: what an operation answers never depends on an earlier response or on an input to come, only `inject_random` reads
the draw, and only `decode` reads `DEC_SPAN`. -/
def Obligations.OnlyTheDrawAndTheSpanAreRead : Prop :=
  ∀ (i : Instr) (s t : State),
    ((∀ m p, i ≠ .injectRandom m p) ∨ s.rnd = t.rnd) → ((∀ m p, i ≠ .decode m p) ∨ s.config = t.config) →
    ∃ w : Word, exec i s = .next (s.answered w) ∧ exec i t = .next (t.answered w)

/-- R140: reset leaves an engine with nothing sent and nothing delivered, which stays idle; a reset input abandons the command in
progress without a response and has no other effect. -/
def Obligations.ResetLeavesAnIdleEngine : Prop :=
  State.reset.inputs = [] ∧ State.reset.responses = [] ∧ step State.reset = .next State.reset ∧
  ∀ (s : State) (c : Option Word) (rest : List Input), s.inputs = .reset c :: rest →
    step s = .next { s with inputs := rest }

/-- R10, R38, R127: a host's commands are answered, in order, each as if it were the first after reset, whatever came before it and
whether or not an earlier one faulted. -/
def Obligations.EachCommandIsAnsweredAsIfAlone : Prop :=
  ∀ s : State, ∃ t : State, Sys2Proof.core.run s.inputs.length s = .next t ∧
    t.inputs = [] ∧ t.config = s.config ∧
    t.responses = s.responses ++ s.inputs.flatMap (firstResponses s.config)

/-- R41: in whatever order commands are served, each with its draw, the same responses are given. -/
def Obligations.OrderOfServiceNeverChangesTheAnswers : Prop :=
  ∀ s t : State, s.config = t.config → s.responses = [] → t.responses = [] → s.inputs.Perm t.inputs →
    ∃ u v : State, Sys2Proof.core.run s.inputs.length s = .next u ∧ Sys2Proof.core.run t.inputs.length t = .next v ∧
      u.responses.Perm v.responses

/-- R57: the packed form of a text command decodes to the command it writes, with the length found from the string; text with no packed
form has none.
That an `encode` string of every length from 0 to 39 has a packed form, the unsupported lengths among them, is the model's choice
(DEDUCED, notes/assumptions/15.md): R57 says only that `m` is the length of the string. -/
def Obligations.AssembledTextDecodesToItsCommand : Prop :=
  (∀ m, m ≤ 63 → ∃ w, assemble (.totalLength m) = some w ∧ decodeCommand w = .ok (.totalLength m)) ∧
  (∀ bits : BitString, bits.length ≤ 39 →
    ∃ w, assemble (.encode (textOfBits bits)) = some w ∧
      decodeCommand w = .ok (.encode bits.length (payloadOfBits bits)) ∧
      bitsOfPayload bits.length (payloadOfBits bits) = bits) ∧
  (∀ (bits : BitString) (m pos : Nat), (m = 8 ∨ m = 16 ∨ m = 32) → bits.length = totalLength m → pos < 64 →
    (∃ w, assemble (.injectAt (textOfBits bits) pos) = some w ∧
      decodeCommand w = .ok (.injectAt m pos (payloadOfBits bits))) ∧
    (∃ w, assemble (.injectRandom (textOfBits bits)) = some w ∧
      decodeCommand w = .ok (.injectRandom m (payloadOfBits bits))) ∧
    (∃ w, assemble (.decode (textOfBits bits) m) = some w ∧
      decodeCommand w = .ok (.decode m (payloadOfBits bits)))) ∧
  (∀ (text : List Char) (pos m : Nat), (∃ c ∈ text, c ≠ '0' ∧ c ≠ '1') →
    assemble (.encode text) = none ∧ assemble (.injectAt text pos) = none ∧
    assemble (.injectRandom text) = none ∧ assemble (.decode text m) = none) ∧
  (∀ (text : List Char) (pos : Nat), (∀ m ∈ supportedM, text.length ≠ totalLength m) →
    assemble (.injectAt text pos) = none ∧ assemble (.injectRandom text) = none) ∧
  (∀ (text : List Char) (m : Nat), text.length ≠ totalLength m → assemble (.decode text m) = none)
end

