-- ==== Sys2Proof/Laws/Ops.lean ====
section
/-! SUPPORT. What each shared operation can do, said once: slot accesses, XORs over slots, the packed forms, and the end of an
operation. -/

namespace Sys2Proof.Machine

/-! Positions. -/

theorem mem_positions {hi j : Nat} : j ∈ positions hi ↔ 1 ≤ j ∧ j ≤ hi := by
  simp only [positions, List.mem_range'_1]; omega

theorem positions_nodup (hi : Nat) : (positions hi).Nodup := List.nodup_range'

theorem positions_succ (hi : Nat) : positions (hi + 1) = positions hi ++ [hi + 1] := by
  simp [positions, List.range'_concat, Nat.add_comm]

theorem mem_cover {p hi j : Nat} : j ∈ cover p hi ↔ (1 ≤ j ∧ j ≤ hi) ∧ j &&& p ≠ 0 := by
  simp [cover, covers, mem_positions]

theorem cover_nodup (p hi : Nat) : (cover p hi).Nodup := (positions_nodup hi).filter _

theorem covers_two_pow (i j : Nat) : covers (2 ^ i) j = j.testBit i := by
  rw [covers, Nat.and_two_pow]
  cases j.testBit i <;> simp

/-! Slots. -/

@[simp] theorem length_writeSlot (s : BitString) (j : Nat) (v : Bool) : (writeSlot s j v).length = s.length := by
  cases j <;> simp [writeSlot]

@[simp] theorem length_flipBit (s : BitString) (q : Nat) : (flipBit s q).length = s.length := length_writeSlot _ _ _

theorem readSlot_writeSlot_self {s : BitString} {j : Nat} (h : 1 ≤ j ∧ j ≤ s.length) (v : Bool) :
    readSlot (writeSlot s j v) j = v := by
  obtain ⟨k, rfl⟩ : ∃ k, j = k + 1 := ⟨j - 1, by omega⟩
  simp [readSlot, writeSlot, show k < s.length by omega]

theorem readSlot_writeSlot_ne {s : BitString} {j k : Nat} (h : k ≠ j) (v : Bool) :
    readSlot (writeSlot s j v) k = readSlot s k := by
  cases j with
  | zero => rfl
  | succ a =>
    cases k with
    | zero => rfl
    | succ b => simp [readSlot, writeSlot, List.getElem?_set_ne (show a ≠ b by omega)]

theorem readSlot_flipBit {c : BitString} {q : Nat} (h : 1 ≤ q ∧ q ≤ c.length) (j : Nat) :
    readSlot (flipBit c q) j = (readSlot c j ^^ decide (j = q)) := by
  by_cases hj : j = q
  · subst hj; simp [flipBit, readSlot_writeSlot_self h]
  · simp [flipBit, readSlot_writeSlot_ne hj, hj]

theorem readSlot_of_length_lt {s : BitString} {j : Nat} (h : s.length < j) : readSlot s j = false := by
  obtain ⟨k, rfl⟩ : ∃ k, j = k + 1 := ⟨j - 1, by omega⟩
  simp [readSlot, show s.length ≤ k by omega]

/-- Two BitStrings of one length with the same bit at every position are equal. -/
theorem bitString_ext {a b : BitString} (hl : a.length = b.length)
    (h : ∀ j, 1 ≤ j → j ≤ a.length → readSlot a j = readSlot b j) : a = b := by
  apply List.ext_getElem hl
  intro k ha hb
  simpa [readSlot, ha, hb] using h (k + 1) (by omega) (by omega)

/-! XOR over slots. -/

@[simp] theorem xorOver_nil (s : BitString) : xorOver s [] = false := rfl

@[simp] theorem xorOver_cons (s : BitString) (j : Nat) (S : List Nat) :
    xorOver s (j :: S) = (readSlot s j ^^ xorOver s S) := rfl

theorem xorOver_append (s : BitString) (S T : List Nat) : xorOver s (S ++ T) = (xorOver s S ^^ xorOver s T) := by
  induction S with
  | nil => simp
  | cons j S ih => simp [ih]

theorem xorOver_congr {a b : BitString} {S : List Nat} (h : ∀ j ∈ S, readSlot a j = readSlot b j) :
    xorOver a S = xorOver b S := by
  induction S with
  | nil => rfl
  | cons j S ih => simp_all

theorem xorOver_writeSlot_of_not_mem {s : BitString} {j : Nat} {S : List Nat} (h : j ∉ S) (v : Bool) :
    xorOver (writeSlot s j v) S = xorOver s S :=
  xorOver_congr fun k hk => readSlot_writeSlot_ne (by rintro rfl; exact h hk) v

/-- Flipping one position changes an XOR exactly when the position is among those the XOR runs over. -/
theorem xorOver_flipBit {c : BitString} {q : Nat} (hq : 1 ≤ q ∧ q ≤ c.length) {S : List Nat} (hS : S.Nodup) :
    xorOver (flipBit c q) S = (xorOver c S ^^ decide (q ∈ S)) := by
  induction S with
  | nil => simp
  | cons j S ih =>
    obtain ⟨hj, hS⟩ := List.nodup_cons.mp hS
    rw [xorOver_cons, xorOver_cons, ih hS, readSlot_flipBit hq]
    by_cases e : j = q
    · subst e; simp [hj]
    · simp [e, Ne.symm e]

/-! The packed forms. -/

@[simp] theorem length_bitsOfPayload (len : Nat) (p : Payload) : (bitsOfPayload len p).length = len := by
  simp [bitsOfPayload]

theorem readSlot_bitsOfPayload {len : Nat} (p : Payload) {j : Nat} (h : 1 ≤ j ∧ j ≤ len) :
    readSlot (bitsOfPayload len p) j = p.getLsbD (j - 1) := by
  obtain ⟨k, rfl⟩ : ∃ k, j = k + 1 := ⟨j - 1, by omega⟩
  simp [readSlot, bitsOfPayload, show k < len by omega]

/-- Position `j` stands at payload bit `j - 1`, and every bit above the string's length is 0. -/
theorem getLsbD_payloadOfBits (s : BitString) (i : Nat) :
    (payloadOfBits s).getLsbD i = (decide (i < 39) && readSlot s (i + 1)) := by
  simp [payloadOfBits, readSlot, BitVec.getLsbD_setWidth]

theorem unpackResponse_packResponse (r : Response) : unpackResponse (packResponse r) = r := by
  obtain ⟨f, st, o, n, p, d⟩ := r
  simp only [unpackResponse, packResponse, Response.mk.injEq]
  refine ⟨?_, ?_, ?_, ?_, ?_, ?_⟩ <;>
  · ext i hi
    simp only [BitVec.getElem_extractLsb', BitVec.getLsbD_append]
    grind

theorem rspZero_packResponse (r : Response) : rspZero (packResponse r) = 0 := by
  obtain ⟨f, st, o, n, p, d⟩ := r
  simp only [rspZero, packResponse]
  ext i hi
  simp only [BitVec.getElem_extractLsb', BitVec.getLsbD_append]
  grind

/-! The end of an operation. -/

theorem finish_ok (r : Result) (s : State) : finish (.ok r) s = complete r s := rfl

theorem finish_error (f : Fault) (s : State) : finish (.error f) s = raiseFault f s := rfl

/-- Everything the end of an operation can do: a next state in which one response was delivered and nothing else changed. -/
theorem finish_next {e : Except Fault Result} {s t : State} (h : finish e s = .next t) :
    t = { s with responses := s.responses ++ [packResponse (replyOf e)] } := by
  simpa [finish, State.respond] using h.symm

end Sys2Proof.Machine
end

