-- ==== Sys2Proof/Laws/Blocks.lean ====
section
/-! SUPPORT. What operand assembly, the steps of the encoder and the error corrector can do, said once. -/

namespace Sys2Proof.Machine

/-! Operand assembly (R50, R51). -/

theorem legalForTotalLength_iff {m : Nat} : legalForTotalLength m = true ↔ 1 ≤ m ∧ m ≤ 63 := by
  rw [legalForTotalLength, Bool.and_eq_true, decide_eq_true_iff, decide_eq_true_iff]; rfl

theorem supported_iff {m : Nat} : supported m = true ↔ m = 8 ∨ m = 16 ∨ m = 32 := by
  simp [supported, supportedM]

theorem inRange_iff {n pos : Nat} : inRange n pos = true ↔ 1 ≤ pos ∧ pos ≤ n := by
  simp [inRange]

@[simp] theorem length_dataOperand (m : Nat) (p : Payload) : (dataOperand m p).length = m := length_bitsOfPayload _ _

@[simp] theorem length_codeOperand (m : Nat) (p : Payload) : (codeOperand m p).length = totalLength m :=
  length_bitsOfPayload _ _

/-! The steps of the encoder keep the length (R81 to R85). -/

@[simp] theorem length_allocate (n : Nat) : (allocate n).length = n := by simp [allocate]

theorem readSlot_allocate (n j : Nat) : readSlot (allocate n) j = false := by
  cases j with
  | zero => rfl
  | succ k => by_cases h : k < n <;> simp [readSlot, allocate, h]

@[simp] theorem length_placeData (js : List Nat) (data cw : BitString) : (placeData js data cw).length = cw.length := by
  induction js generalizing data cw with
  | nil => rfl
  | cons j js ih => by_cases h : isPowerOfTwo j <;> simp [placeData, h, ih]

/-- Data placement leaves every position that is a power of two, or is not walked, as it was (R82). -/
theorem readSlot_placeData_of_skipped {j : Nat} {js : List Nat} (h : isPowerOfTwo j = true ∨ j ∉ js)
    (data cw : BitString) : readSlot (placeData js data cw) j = readSlot cw j := by
  induction js generalizing data cw with
  | nil => rfl
  | cons k js ih =>
    have hk : isPowerOfTwo j = true ∨ j ∉ js := h.imp_right fun hn hm => hn (List.mem_cons_of_mem _ hm)
    by_cases hp : isPowerOfTwo k
    · simp only [placeData, hp, if_true, ih hk]
    · have hne : j ≠ k := by
        rintro rfl
        rcases h with h | h
        · exact hp h
        · exact h List.mem_cons_self
      simp only [placeData, hp, ih hk, Bool.false_eq_true, if_false, readSlot_writeSlot_ne hne]

@[simp] theorem length_storeParity (n : Nat) (cw : BitString) (i : Nat) : (storeParity n cw i).length = cw.length :=
  length_writeSlot _ _ _

@[simp] theorem length_storeParities (r n : Nat) (cw : BitString) : (storeParities r n cw).length = cw.length := by
  unfold storeParities
  induction List.range r generalizing cw with
  | nil => rfl
  | cons i is ih => simp [ih]

@[simp] theorem length_storeOverall (n : Nat) (cw : BitString) : (storeOverall n cw).length = cw.length :=
  length_writeSlot _ _ _

/-- A parity store changes the one slot it stores to (R84). -/
theorem readSlot_storeParity_ne {n i j : Nat} (h : j ≠ 2 ^ i) (cw : BitString) :
    readSlot (storeParity n cw i) j = readSlot cw j := readSlot_writeSlot_ne h _

/-- The overall store changes the one slot it stores to (R85). -/
theorem readSlot_storeOverall_ne {n j : Nat} (h : j ≠ n) (cw : BitString) :
    readSlot (storeOverall n cw) j = readSlot cw j := readSlot_writeSlot_ne h _

/-- The coverage sets of two parity positions: neither holds the other (R71). -/
theorem two_pow_not_mem_cover {i k hi : Nat} (h : i ≠ k) : 2 ^ k ∉ cover (2 ^ i) hi := by
  rw [mem_cover, not_and, Classical.not_not, Nat.and_two_pow, Nat.testBit_two_pow_of_ne (Ne.symm h)]
  simp

/-- A check depends only on the slots it covers (R83). -/
theorem chk_congr {a b : BitString} {p hi : Nat}
    (h : ∀ j, 1 ≤ j → j ≤ hi → j &&& p ≠ 0 → readSlot a j = readSlot b j) : chk a p hi = chk b p hi :=
  xorOver_congr fun j hj => by
    obtain ⟨⟨h1, h2⟩, h3⟩ := mem_cover.mp hj
    exact h j h1 h2 h3

/-! The error corrector (R105 to R107). -/

/-- Everything the corrector can answer, with the case it answers it in. -/
theorem correct_cases (code : BitString) (n synd : Nat) (ovp : Bool) :
    (synd = 0 ∧ ovp = false ∧ correct code n synd ovp = .ok (.noError, code)) ∨
    (synd ≠ 0 ∧ ovp = true ∧ synd ≤ n ∧ correct code n synd ovp = .ok (.singleCorrected, flipBit code synd)) ∨
    (synd ≠ 0 ∧ ovp = true ∧ n < synd ∧ correct code n synd ovp = .error .syndromeOutOfRange) ∨
    ((synd = 0 ↔ ovp = true) ∧ correct code n synd ovp = .ok (.doubleUncorrectable, code)) := by
  by_cases hs : synd = 0 <;> cases ovp <;> simp [correct, classify, hs]
  by_cases hn : n < synd
  · simp [hn]
  · simp [hn]; omega

end Sys2Proof.Machine
end

