-- ==== Sys2Proof/Laws/Decode.lean ====
section
/-! SUPPORT. The fields of a packed command word, the operation number as arithmetic on the word, and what the decoder reads. -/

namespace Sys2Proof

section
variable (op : BitVec 3) (m pos : BitVec 6) (res : BitVec 10) (p : Payload)

@[simp] theorem cmdOp_packCommand : cmdOp (packCommand op m pos res p) = op := by
  ext i hi
  simp only [cmdOp, packCommand, BitVec.getElem_extractLsb', BitVec.getLsbD_append]
  grind

@[simp] theorem cmdM_packCommand : cmdM (packCommand op m pos res p) = m := by
  ext i hi
  simp only [cmdM, packCommand, BitVec.getElem_extractLsb', BitVec.getLsbD_append]
  grind

@[simp] theorem cmdPos_packCommand : cmdPos (packCommand op m pos res p) = pos := by
  ext i hi
  simp only [cmdPos, packCommand, BitVec.getElem_extractLsb', BitVec.getLsbD_append]
  grind

@[simp] theorem cmdReserved_packCommand : cmdReserved (packCommand op m pos res p) = res := by
  ext i hi
  simp only [cmdReserved, packCommand, BitVec.getElem_extractLsb', BitVec.getLsbD_append]
  grind

@[simp] theorem cmdPayload_packCommand : cmdPayload (packCommand op m pos res p) = p := by
  ext i hi
  simp only [cmdPayload, packCommand, BitVec.getElem_extractLsb', BitVec.getLsbD_append]
  grind

end

/-- `OP` is the top three bits of the word read as a number (R46). -/
theorem cmdOp_toNat (w : Word) : (cmdOp w).toNat = w.toNat / 2 ^ 61 := by
  simp [cmdOp, BitVec.extractLsb'_toNat, Nat.shiftRight_eq_div_pow]
  omega

/-- `M` is bits 60 to 55 of the word read as a number (R46). -/
theorem cmdM_toNat (w : Word) : (cmdM w).toNat = w.toNat / 2 ^ 55 % 2 ^ 6 := by
  simp [cmdM, BitVec.extractLsb'_toNat, Nat.shiftRight_eq_div_pow]

end Sys2Proof
end

