-- ==== Sys2Proof/Laws/PerInstr.lean ====
section
/-! SUPPORT. Statements about instructions as syntax, one lemma per constructor of Instr. -/

/-- The word the encoder makes carries the operation's number in `OP` and 0 in the reserved bits. -/
def Sys2Proof.Laws.OpField.Statement (i : Sys2Proof.Instr) : Prop :=
  Sys2Proof.cmdOp (Sys2Proof.encodeCommand i) = Sys2Proof.opOf i ∧ Sys2Proof.cmdReserved (Sys2Proof.encodeCommand i) = 0

theorem Sys2Proof.Laws.OpField.totalLength (m : Nat) : Sys2Proof.Laws.OpField.Statement (.totalLength m) :=
  ⟨Sys2Proof.cmdOp_packCommand _ _ _ _ _, Sys2Proof.cmdReserved_packCommand _ _ _ _ _⟩

theorem Sys2Proof.Laws.OpField.encode (m : Nat) (p : Sys2Proof.Payload) : Sys2Proof.Laws.OpField.Statement (.encode m p) :=
  ⟨Sys2Proof.cmdOp_packCommand _ _ _ _ _, Sys2Proof.cmdReserved_packCommand _ _ _ _ _⟩

theorem Sys2Proof.Laws.OpField.injectAt (m pos : Nat) (p : Sys2Proof.Payload) :
    Sys2Proof.Laws.OpField.Statement (.injectAt m pos p) :=
  ⟨Sys2Proof.cmdOp_packCommand _ _ _ _ _, Sys2Proof.cmdReserved_packCommand _ _ _ _ _⟩

theorem Sys2Proof.Laws.OpField.injectRandom (m : Nat) (p : Sys2Proof.Payload) :
    Sys2Proof.Laws.OpField.Statement (.injectRandom m p) :=
  ⟨Sys2Proof.cmdOp_packCommand _ _ _ _ _, Sys2Proof.cmdReserved_packCommand _ _ _ _ _⟩

theorem Sys2Proof.Laws.OpField.decode (m : Nat) (p : Sys2Proof.Payload) : Sys2Proof.Laws.OpField.Statement (.decode m p) :=
  ⟨Sys2Proof.cmdOp_packCommand _ _ _ _ _, Sys2Proof.cmdReserved_packCommand _ _ _ _ _⟩
end

