-- ==== Sys2Proof/Laws/State.lean ====
section
/-! SUPPORT. One lemma per field of State for every update of State, and the fields after reset. -/

namespace Sys2Proof.Machine

@[simp] theorem State.reset_inputs : State.reset.inputs = [] := rfl
@[simp] theorem State.reset_rnd : State.reset.rnd = 0 := rfl
@[simp] theorem State.reset_responses : State.reset.responses = [] := rfl
@[simp] theorem State.reset_config : State.reset.config = { decSpan := .includeN } := rfl

@[simp] theorem State.accept_config (s : State) (d : Draw) (xs : List Input) : (s.accept d xs).config = s.config := rfl
@[simp] theorem State.accept_inputs (s : State) (d : Draw) (xs : List Input) : (s.accept d xs).inputs = xs := rfl
@[simp] theorem State.accept_rnd (s : State) (d : Draw) (xs : List Input) : (s.accept d xs).rnd = d := rfl
@[simp] theorem State.accept_responses (s : State) (d : Draw) (xs : List Input) :
    (s.accept d xs).responses = s.responses := rfl

@[simp] theorem State.abandon_config (s : State) (xs : List Input) : (s.abandon xs).config = s.config := rfl
@[simp] theorem State.abandon_inputs (s : State) (xs : List Input) : (s.abandon xs).inputs = xs := rfl
@[simp] theorem State.abandon_rnd (s : State) (xs : List Input) : (s.abandon xs).rnd = s.rnd := rfl
@[simp] theorem State.abandon_responses (s : State) (xs : List Input) : (s.abandon xs).responses = s.responses := rfl

@[simp] theorem State.answered_config (s : State) (w : Word) : (s.answered w).config = s.config := rfl
@[simp] theorem State.answered_inputs (s : State) (w : Word) : (s.answered w).inputs = s.inputs := rfl
@[simp] theorem State.answered_rnd (s : State) (w : Word) : (s.answered w).rnd = s.rnd := rfl
@[simp] theorem State.answered_responses (s : State) (w : Word) : (s.answered w).responses = s.responses ++ [w] := rfl

@[simp] theorem State.withFetchWord_config (s : State) (k w : Nat) : (s.withFetchWord k w).config = s.config := rfl
@[simp] theorem State.withFetchWord_inputs (s : State) (k w : Nat) :
    (s.withFetchWord k w).inputs = .command (tableWord k w) s.rnd :: s.inputs := rfl
@[simp] theorem State.withFetchWord_rnd (s : State) (k w : Nat) : (s.withFetchWord k w).rnd = s.rnd := rfl
@[simp] theorem State.withFetchWord_responses (s : State) (k w : Nat) :
    (s.withFetchWord k w).responses = s.responses := rfl

/-- Delivering a response is the one update `answered` names; the other three fields follow from its lemmas. -/
@[simp] theorem State.respond_eq_answered (s : State) (r : Response) : s.respond r = s.answered (packResponse r) := rfl

end Sys2Proof.Machine
end

