-- ==== Sys2Proof/Laws/Step.lean ====
section
/-! SUPPORT. What one operation and one step can do, said once. -/

namespace Sys2Proof.Machine

/-- The outcome of an operation before it is packed: what `exec` finishes with. -/
def resultOf (i : Instr) (s : State) : Except Fault Result :=
  match i with
  | .totalLength m => totalLengthResult m
  | .encode m payload => encodeResult m payload
  | .injectAt m pos payload => injectAtResult m pos payload
  | .injectRandom m payload => injectRandomResult m s.rnd.toNat payload
  | .decode m payload => decodeResult s.config.decSpan m payload

/-- Every operation answers a next state that differs only in the one response it delivers. -/
theorem exec_eq_answered (i : Instr) (s : State) :
    exec i s = .next (s.answered (packResponse (replyOf (resultOf i s)))) := by
  cases i <;> rfl

theorem step_idle {s : State} (h : s.inputs = []) : step s = .next s := by simp [step, h]

theorem step_reset {s : State} {c : Option Word} {rest : List Input} (h : s.inputs = .reset c :: rest) :
    step s = .next (s.abandon rest) := by simp [step, h]

theorem step_command {s : State} {w : Word} {d : Draw} {rest : List Input} {i : Instr}
    (h : s.inputs = .command w d :: rest) (hd : decodeCommand w = .ok i) :
    step s = exec i (s.accept d rest) := by simp [step, h, hd]

theorem step_illegal {s : State} {w : Word} {d : Draw} {rest : List Input} {e : DecodeError}
    (h : s.inputs = .command w d :: rest) (hd : decodeCommand w = .error e) :
    step s = raiseFault .illegalOp (s.accept d rest) := by simp [step, h, hd]

end Sys2Proof.Machine
end

