-- ==== Sys2Proof/Tests/Slice0.lean ====
section
/-! SUPPORT. Tests: ill-formed terms refused, command words written out from R46 and R48, one or two steps per operation with the
responses spec/95 lists, and a witness for the hypotheses of every statement that has some. -/

/- One theorem after another: the checker's memory limit counts a stack for every theorem evaluated at once. -/
set_option Elab.async false

open Sys2Proof Sys2Proof.Machine

/-- The next state of an outcome, so that an outcome can be compared by evaluation. -/
def nextOf (o : Host.Outcome State Fault Refusal) : Option State :=
  match o with
  | .next t => some t
  | _ => none

theorem next_of {o : Host.Outcome State Fault Refusal} {t : State} (h : nextOf o = some t) : o = .next t := by
  cases o <;> simp_all [nextOf]

/-! WellFormed: one ill-formed term per check, and the largest terms that pass. -/

theorem test_wf_totalLength_m_too_wide : (Instr.totalLength 64).wellFormed = false := by decide
theorem test_wf_encode_m_too_wide : (Instr.encode 64 0).wellFormed = false := by decide
theorem test_wf_injectAt_m_too_wide : (Instr.injectAt 64 1 0).wellFormed = false := by decide
theorem test_wf_injectAt_pos_too_wide : (Instr.injectAt 8 64 0).wellFormed = false := by decide
theorem test_wf_injectRandom_m_too_wide : (Instr.injectRandom 64 0).wellFormed = false := by decide
theorem test_wf_decode_m_too_wide : (Instr.decode 64 0).wellFormed = false := by decide
theorem test_wf_largest_fields : (Instr.injectAt 63 63 (BitVec.allOnes 39)).wellFormed = true := by decide

/-! Decode: words written out field by field from R46: OP(3) M(6) POS(6) reserved(10) PAYLOAD(39). -/

/-- `total_length(8)`: OP 000, M 001000. -/
theorem test_decode_totalLength :
    decodeCommand (0b000#3 ++ 0b001000#6 ++ 0b000000#6 ++ 0b0000000000#10 ++ 0#39) = .ok (.totalLength 8) := by decide

/-- `encode`, M 100000, payload bits 0, 3 and 38 set; POS and the reserved bits set and ignored. -/
theorem test_decode_encode :
    decodeCommand (0b001#3 ++ 0b100000#6 ++ 0b111111#6 ++ 0b1111111111#10 ++ 0x4000000009#39) =
      .ok (.encode 32 0x4000000009) := by decide

/-- `inject_at`, M 010000, POS 010110. -/
theorem test_decode_injectAt :
    decodeCommand (0b010#3 ++ 0b010000#6 ++ 0b010110#6 ++ 0b1010101010#10 ++ 0x21F595#39) =
      .ok (.injectAt 16 22 0x21F595) := by decide

/-- `inject_random`, M 001000; POS set and ignored. -/
theorem test_decode_injectRandom :
    decodeCommand (0b011#3 ++ 0b001000#6 ++ 0b000101#6 ++ 0b0000000000#10 ++ 0x4E5#39) =
      .ok (.injectRandom 8 0x4E5) := by decide

/-- `decode`, M 001000, payload all ones. -/
theorem test_decode_decode :
    decodeCommand (0b100#3 ++ 0b001000#6 ++ 0b000000#6 ++ 0b0000000000#10 ++ 0x7FFFFFFFFF#39) =
      .ok (.decode 8 0x7FFFFFFFFF) := by decide

/-- OP 101, 110 and 111 select no operation (R55). -/
theorem test_decode_illegal :
    decodeCommand (0b101#3 ++ 0#61) = .error (.illegalOp 5) ∧
    decodeCommand (0b110#3 ++ 0#61) = .error (.illegalOp 6) ∧
    decodeCommand (BitVec.allOnes 64) = .error (.illegalOp 7) := by decide

/-- Every row's table word with 0 in the operand bits decodes to its own operation, and the host's fetch runs it. -/
theorem test_tableWords :
    decodeTableWord 64 0x0000000000000000 = some (.totalLength 0) ∧
    decodeTableWord 64 0x2000000000000000 = some (.encode 0 0) ∧
    decodeTableWord 64 0x4000000000000000 = some (.injectAt 0 0 0) ∧
    decodeTableWord 64 0x6000000000000000 = some (.injectRandom 0 0) ∧
    decodeTableWord 64 0x8000000000000000 = some (.decode 0 0) := by decide

/-- The word placed for the next step is the one the step runs. -/
theorem test_withFetchWord_runs :
    step (State.reset.withFetchWord 64 0x84000000000004E5) = exec (.decode 8 0x4E5) State.reset :=
  (next_of (t := State.reset.answered 0x00680000000004E5) (by decide +kernel)).trans
    (next_of (by decide +kernel)).symm

/-! One step, with the responses of spec/95; `one c w d` is what instance `c` answers the word `w` with the draw `d`. -/

/-- The instance with span `sp` that is about to take one command. -/
def one (sp : DecSpan) (w : Word) (d : Draw) : List Word := firstResponses { decSpan := sp } (.command w d)

/-- V6: `m = 63`, and `m = 0`. -/
theorem test_totalLength :
    one .includeN 0x1F80000000000000 0 = [0x0238000000000000] ∧
    one .includeN 0x0000000000000000 0 = [0x4000000000000000] := by decide +kernel

/-- V7: `c32`. -/
theorem test_encode_c32 : one .includeN 0x30000000C3A50F53 0 = [0x0138007074A1F517] := by decide +kernel

/-- V18: bits above the data word, POS and reserved bits are ignored. -/
theorem test_encode_ignores : one .includeN 0x2455FFFFFFFFFF4D 0 = [0x00680000000004E5] := by decide +kernel

/-- V9: the last position of `c32`, and the first above it. -/
theorem test_injectAt :
    one .includeN 0x504E007074A1F517 0 = [0x013CE03074A1F517] ∧
    one .includeN 0x5050007074A1F517 0 = [0x6000000000000000] := by decide +kernel

/-- V9: draws 7, 0 and 14; the command's POS field is not read. -/
theorem test_injectRandom :
    one .includeN 0x640A0000000004E5 7 = [0x0068E000000004A5] ∧
    one .includeN 0x64000000000004E5 0 = [0x6000000000000000] ∧
    one .includeN 0x64000000000004E5 14 = [0x6000000000000000] := by decide +kernel

/-- V14: `c32` with position 17 flipped parts the two spans. -/
theorem test_decode_c32_17 :
    one .includeN 0x9000007074A0F517 0 = [0x8000000000000000] ∧
    one .excludeN 0x9000007074A0F517 0 = [0x0D38007074A1F517] := by decide +kernel

/-- V13: `c16` with positions 6 and 16 flipped escapes under `INCLUDE_N`. -/
theorem test_decode_c16_6_16 :
    one .includeN 0x88000000002175B5 0 = [0x00B00000002175B5] ∧
    one .excludeN 0x88000000002175B5 0 = [0x10B00000002175B5] := by decide +kernel

/-- V17: an illegal operation number wins over a bad length. -/
theorem test_illegalOp : one .includeN 0xA480000000000000 0 = [0x2000000000000000] := by decide +kernel

/-- R7: the parameters agree with the functions. -/
theorem test_parameters : parityCount mMax = rMax ∧ totalLength mMax = nMax ∧ supported mMax = true := by decide +kernel

/-- V19: the kinds of `n = 13`. -/
theorem test_kinds :
    (positions 13).map (kind 13) =
      [.parity, .parity, .data, .parity, .data, .data, .data, .parity, .data, .data, .data, .data, .overall] := by
  decide +kernel

/-- V20: a length outside `SUPPORTED_M`, where `n = 8` is a power of two. -/
theorem test_encodeBits_m4 :
    encodeBits 4 [true, false, true, true] = [false, true, true, false, false, true, true, false] := by decide +kernel

/-- R57: the text of V9's first row, and its packed form. -/
theorem test_assemble :
    assemble (.injectAt ['1', '0', '1', '0', '0', '1', '1', '1', '0', '0', '1', '0', '0'] 5) =
      some 0x440A0000000004E5 := by decide +kernel

theorem test_render : render (.totalLength 13) = "total_length(13)".toList := by decide +kernel

/-! Witnesses. `c8` is spec/95's `c`, `k8` its `c1` (overall bit 1). -/

def c8 : BitString := [true, false, true, false, false, true, true, true, false, false, true, false, false]
def k8 : BitString := [false, false, false, true, false, false, false, true, false, false, false, true, true]

theorem c8_valid : ValidCodeword 8 c8 :=
  ⟨[true, false, true, true, false, false, true, false], rfl, by decide +kernel⟩

theorem k8_valid : ValidCodeword 8 k8 :=
  ⟨[false, false, false, false, false, false, false, true], rfl, by decide +kernel⟩

/-- A state about to take `x`, with one response already delivered. -/
def before (x : Input) : State :=
  { config := { decSpan := .excludeN }, inputs := [x, .reset none], rnd := 9, responses := [0x0068000000000000] }

theorem witness_StepRunsTheDecodedCommand :
    State.reset.inputs = [] ∧
    (before (.reset (some 1))).inputs = .reset (some 1) :: [.reset none] ∧
    (before (.command 0x84000000000004E5 3)).inputs = .command 0x84000000000004E5 3 :: [.reset none] ∧
    decodeCommand 0x84000000000004E5 = .ok (.decode 8 0x4E5) ∧
    decodeCommand 0xA000000000000000 = .error (.illegalOp 5) := by decide

theorem witness_IllegalOpFaultsWhateverTheOtherFields :
    (before (.command 0xA000000000000000 3)).inputs = .command 0xA000000000000000 3 :: [.reset none] ∧
    5 ≤ (0xA000000000000000 : Word).toNat / 2 ^ 61 ∧ 5 ≤ (0xFFFFFFFFFFFFFFFF : Word).toNat / 2 ^ 61 := by decide

theorem witness_DecodeInvertsEncode :
    (Instr.totalLength 63).wellFormed ∧ (Instr.encode 63 0x7FFFFFFFFF).wellFormed ∧
    (Instr.injectAt 63 63 1).wellFormed ∧ (Instr.injectRandom 0 0).wellFormed ∧ (Instr.decode 32 5).wellFormed := by decide

theorem witness_TopThreeBitsSelectTheOperation :
    (0x9FFFFFFFFFFFFFFF : Word).toNat / 2 ^ 61 < 5 ∧ 5 ≤ (0xA000000000000000 : Word).toNat / 2 ^ 61 := by decide

theorem witness_UnreadBitsNeverChangeTheAnswer :
    SameReadBits 0x2455FFFFFFFFFF4D 0x240000000000004D ∧ cmdOp 0x2455FFFFFFFFFF4D ≠ 3 := by
  unfold SameReadBits; decide +kernel

theorem witness_ParityCountIsMinimal : 1 ≤ 1 ∧ 1 < parityCount 1 := by decide +kernel

/-- Every case of R74: `n < 2^r` at 8, `n = 2^r` at 4, a supported length, a larger length, and two positions. -/
theorem witness_CountingFacts :
    1 ≤ 8 ∧ totalLength 8 < 2 ^ parityCount 8 ∧ totalLength 4 = 2 ^ parityCount 4 ∧ 8 ∈ supportedM ∧ 8 < 9 ∧
    (1 ≤ 1 ∧ 1 ≤ totalLength 8 - 1 ∧ 1 ≤ 12 ∧ 12 ≤ totalLength 8 - 1 ∧ 1 ≠ 12) := by decide +kernel

theorem witness_PositionMap : 1 ≤ 8 ∧ 1 ≤ 13 ∧ 13 ≤ totalLength 8 := by decide +kernel

theorem witness_DataPositionsInOrder : 1 ≤ 8 ∧ 1 ≤ 8 ∧ dpos 8 1 = some 3 ∧ dpos 8 8 = some 12 := by decide +kernel

theorem witness_CoverageSets : 2 ^ 3 ≤ 13 ∧ (0 : Nat) ≠ 3 ∧ 1 ≤ 13 := by decide

theorem witness_TotalLengthCompletes :
    1 ≤ 1 ∧ 1 ≤ 63 ∧ 63 ≤ 63 ∧ (0x1FFFFFFFFFFFFFFF : Word).toNat / 2 ^ 61 = 0 := by decide

theorem witness_BadLengthFaults : (9 : Nat) ≠ 8 ∧ 9 ≠ 16 ∧ 9 ≠ 32 ∧ (0 : Nat) ≠ 8 ∧ (0 : Nat) ≠ 16 ∧ (0 : Nat) ≠ 32 := by decide

theorem witness_EncodeCompletes :
    (32 = 8 ∨ 32 = 16 ∨ 32 = 32) ∧ dpos 32 32 = some 38 ∧ 5 < parityCount 32 ∧ totalLength 32 < 40 := by decide +kernel

theorem witness_FreshCodewordInvariants : 1 ≤ 1 ∧ [true].length = 1 ∧ 1 < parityCount 1 := by decide +kernel

theorem witness_EncoderSteps :
    1 ≤ 1 ∧ [true].length = 1 ∧ dpos 1 1 = some 3 ∧ 1 < parityCount 1 ∧ [1, 0].Perm (List.range (parityCount 1)) := by
  decide +kernel

theorem witness_CheckIsTheOddnessOfCoveredOnes : 2 ^ 3 ≤ 13 := by decide

theorem witness_ValidCodewordsAreThoseThatPassTheChecks : 1 ≤ 8 ∧ c8.length = totalLength 8 ∧ ValidCodeword 8 c8 :=
  ⟨by decide, by decide +kernel, c8_valid⟩

theorem witness_EncodeIsLinear : 1 ≤ 2 ∧ [true, false].length = 2 ∧ [true, true].length = 2 ∧
    c8.length = k8.length := by decide

theorem witness_FlipInvertsOneBit : 1 ≤ 1 ∧ 13 ≤ c8.length ∧ c8.length ≤ 39 := by decide

theorem witness_InjectAtCompletes : (8 = 8 ∨ 8 = 16 ∨ 8 = 32) ∧ 1 ≤ 1 ∧ 1 ≤ 13 ∧ 13 ≤ totalLength 8 := by decide +kernel

theorem witness_InjectRandomCompletes :
    1 ≤ (before (.reset none)).rnd.toNat ∧ (before (.reset none)).rnd.toNat ≤ totalLength 8 := by decide +kernel

/-- An injection that completes and one that faults. -/
theorem witness_InjectionFlipsExactlyOneBit :
    exec (.injectAt 8 13 0x4E5) State.reset = .next (State.reset.answered 0x0069A000000014E5) ∧
    exec (.injectAt 8 14 0x4E5) State.reset = .next (State.reset.answered 0x6000000000000000) ∧
    isFaultWord 0x0069A000000014E5 = false ∧ isFaultWord 0x6000000000000000 = true :=
  ⟨next_of (by decide +kernel), next_of (by decide +kernel), by decide, by decide⟩

theorem witness_InjectingTwiceRestores : (16 = 8 ∨ 16 = 16 ∨ 16 = 32) ∧ 1 ≤ 22 ∧ 22 ≤ totalLength 16 := by decide +kernel

theorem witness_PosOutOfRangeFaults :
    ((0 : Nat) = 0 ∨ totalLength 8 < 0) ∧ (14 = 0 ∨ totalLength 8 < 14) ∧
    ((before (.reset none)).accept 14 []).rnd.toNat = 14 ∧ State.reset.rnd.toNat = 0 := by decide +kernel

/-- A command of each row of R105 that completes: no error, corrected, uncorrectable twice, and the largest syndrome that names a
position. -/
theorem witness_DecodeCompletes :
    ¬ SyndromeTooLarge State.reset 8 0x4E5 ∧ ¬ SyndromeTooLarge State.reset 8 0x4F5 ∧
    ¬ SyndromeTooLarge State.reset 8 0x5E1 ∧ ¬ SyndromeTooLarge State.reset 8 0x0888 ∧
    ¬ SyndromeTooLarge State.reset 8 0x14E5 ∧ syndOf State.reset 8 0x14E5 = totalLength 8 := by
  unfold SyndromeTooLarge; decide +kernel

/-- V15 under either span: the syndrome is 15. -/
theorem witness_SyndromeOutOfRangeFaults :
    SyndromeTooLarge State.reset 8 0xCE6 ∧ SyndromeTooLarge (before (.reset none)) 8 0xCE6 := by
  unfold SyndromeTooLarge; decide +kernel

theorem witness_SyndromeIsTheOrOfFailingChecks : 3 < 4 ∧ 2 ^ 3 ≤ 13 := by decide

theorem witness_OverallParityIsTheOddnessOfOnes : 1 ≤ 8 ∧ ValidCodeword 8 k8 := ⟨by decide, k8_valid⟩

theorem witness_ClassificationTable : (13 : Nat) ≠ 0 ∧ 13 ≤ 13 := by decide

theorem witness_SyndromeClosedForm :
    1 ≤ 8 ∧ c8.length = totalLength 8 ∧ ValidCodeword 8 c8 ∧ [1, 13].Nodup ∧
    ∀ j ∈ [1, 13], 1 ≤ j ∧ j ≤ totalLength 8 :=
  ⟨by decide, by decide +kernel, c8_valid, by decide, by decide +kernel⟩

/-- Position `n` holding 0, and `n = 2^r`. -/
theorem witness_SpansDifferOnlyThroughPositionN :
    c8.length = totalLength 8 ∧ readSlot c8 (totalLength 8) = false ∧
    (List.replicate 8 true).length = totalLength 4 ∧ totalLength 4 = 2 ^ parityCount 4 := by decide +kernel

theorem witness_OneFlipUnderExcludeN : 1 ≤ 8 ∧ ValidCodeword 8 k8 ∧ 1 ≤ 12 ∧ 12 < totalLength 8 :=
  ⟨by decide, k8_valid, by decide, by decide +kernel⟩

theorem witness_OneFlipUnderIncludeNOverallZero :
    totalLength 8 < 2 ^ parityCount 8 ∧ ValidCodeword 8 c8 ∧ readSlot c8 (totalLength 8) = false ∧ 13 ≤ totalLength 8 :=
  ⟨by decide +kernel, c8_valid, by decide +kernel, by decide +kernel⟩

/-- A position whose XOR with `n` names a position, and one whose XOR does not. -/
theorem witness_OneFlipUnderIncludeNOverallOne :
    totalLength 8 < 2 ^ parityCount 8 ∧ ValidCodeword 8 k8 ∧ readSlot k8 (totalLength 8) = true ∧
    12 ^^^ totalLength 8 ≤ totalLength 8 ∧ totalLength 8 < 2 ^^^ totalLength 8 :=
  ⟨by decide +kernel, k8_valid, by decide +kernel, by decide +kernel, by decide +kernel⟩

theorem witness_DoubleErrorsAreDetected :
    totalLength 8 < 2 ^ parityCount 8 ∧ ValidCodeword 8 c8 ∧ 1 ≤ 1 ∧ 1 < 13 ∧ 13 ≤ totalLength 8 ∧
    readSlot c8 (totalLength 8) = false :=
  ⟨by decide +kernel, c8_valid, by decide, by decide, by decide +kernel, by decide +kernel⟩

theorem witness_DoubleErrorsThatEscapeUnderIncludeN :
    totalLength 8 < 2 ^ parityCount 8 ∧ ValidCodeword 8 k8 ∧ readSlot k8 (totalLength 8) = true ∧
    (4 < 9 ∧ 9 < totalLength 8 ∧ 4 ^^^ 9 = totalLength 8) ∧ (5 < 13 ∧ 13 ≤ totalLength 8) :=
  ⟨by decide +kernel, k8_valid, by decide +kernel, by decide +kernel, by decide +kernel⟩

theorem witness_RoundTripWithoutError : 8 = 8 ∨ 8 = 16 ∨ 8 = 32 := by decide

/-- Both premises of the conclusion: `EXCLUDE_N` before `n`, and `INCLUDE_N` with overall bit 0 at `n`. -/
theorem witness_PipelineCorrectsOneInjectedError :
    (before (.reset none)).config.decSpan = .excludeN ∧ 12 < totalLength 8 ∧
    State.reset.config.decSpan = .includeN ∧ 13 ≤ totalLength 8 ∧
    exec (.encode 8 0x4D) State.reset = .next (State.reset.answered 0x00680000000004E5) ∧
    positionBit (unpackResponse 0x00680000000004E5).payload (totalLength 8) = false :=
  ⟨by decide, by decide +kernel, by decide, by decide +kernel, next_of (by decide +kernel), by decide +kernel⟩

/-- Both premises of the conclusion: `EXCLUDE_N` (with the codeword of overall bit 1), and overall bit 0 under `INCLUDE_N`. -/
theorem witness_PipelineDetectsTwoInjectedErrors :
    1 ≤ 12 ∧ 12 < 13 ∧ 13 ≤ totalLength 8 ∧
    (before (.reset none)).config.decSpan = .excludeN ∧
    exec (.encode 8 0x80) State.reset = .next (State.reset.answered 0x0068000000001888) ∧
    positionBit (unpackResponse 0x0068000000001888).payload (totalLength 8) = true ∧
    State.reset.config.decSpan = .includeN ∧
    exec (.encode 8 0x4D) State.reset = .next (State.reset.answered 0x00680000000004E5) ∧
    positionBit (unpackResponse 0x00680000000004E5).payload (totalLength 8) = false :=
  ⟨by decide, by decide, by decide +kernel, by decide, next_of (by decide +kernel), by decide +kernel, by decide,
    next_of (by decide +kernel), by decide +kernel⟩

/-- One command for each line of the priority chain, at the edges where the lines meet. -/
theorem witness_FaultPriority :
    (before (.command 0xA480000000000000 0)).inputs = .command 0xA480000000000000 0 :: [.reset none] ∧
    one .excludeN 0xA480000000000000 0 = [0x2000000000000000] ∧ one .excludeN 0x44800000000004E5 0 = [0x4000000000000000] ∧
    one .excludeN 0x44000000000004E5 0 = [0x6000000000000000] ∧ one .excludeN 0x64000000000004E5 14 = [0x6000000000000000] ∧
    one .excludeN 0x8400000000000CE6 0 = [0x8000000000000000] ∧ one .excludeN 0x64000000000004E5 13 = [0x0069A000000014E5] := by
  decide +kernel

theorem witness_FaultedResponseIsTheCodeAlone :
    step (before (.command 0xA000000000000000 9)) =
      .next (State.answered { before (.reset none) with inputs := [.reset none] } 0x2000000000000000) ∧
    isFaultWord 0x2000000000000000 = true := ⟨next_of (by decide +kernel), by decide⟩

theorem witness_EveryStepKeepsResponsesWellFormed :
    (before (.command 0x84000000000004E5 0)).Inv ∧
    step (before (.command 0x84000000000004E5 0)) =
      .next (State.answered { before (.reset none) with inputs := [.reset none], rnd := 0 } 0x00680000000004E5) :=
  ⟨by unfold State.Inv; decide +kernel, next_of (by decide +kernel)⟩

/-- The invariant refuses what R47 forbids: a tag of 3, a fault with a payload, a payload bit above `n`. -/
theorem test_inv_refuses :
    responseWellFormed 0x1868000000000000 = false ∧ responseWellFormed 0x2000000000000001 = false ∧
    responseWellFormed 0x0068000000002000 = false := by decide +kernel

theorem witness_FrameOfEveryOperation :
    exec (.totalLength 8) State.reset = .next (State.reset.answered 0x0068000000000000) := next_of (by decide +kernel)

theorem witness_OnlyTheDrawAndTheSpanAreRead :
    ((∀ m p, Instr.encode 8 0 ≠ .injectRandom m p) ∨ State.reset.rnd = (before (.reset none)).rnd) ∧
    ((∀ m p, Instr.encode 8 0 ≠ .decode m p) ∨ State.reset.config = (before (.reset none)).config) :=
  ⟨.inl fun _ _ h => Instr.noConfusion h, .inl fun _ _ h => Instr.noConfusion h⟩

theorem witness_ResetLeavesAnIdleEngine : (before (.reset (some 5))).inputs = .reset (some 5) :: [.reset none] := rfl

theorem witness_OrderOfServiceNeverChangesTheAnswers :
    State.reset.config = State.reset.config ∧ State.reset.responses = [] ∧
    [Input.command 0 1, .command 5 2].Perm [Input.command 5 2, .command 0 1] := by decide

/-- Text of every form that has a packed form, text that is not binary, and lengths that fit no `m`. -/
theorem witness_AssembledTextDecodesToItsCommand :
    63 ≤ 63 ∧ (List.replicate 39 true).length ≤ 39 ∧ c8.length = totalLength 8 ∧ 63 < 64 ∧
    (∃ c ∈ ['1', '2'], c ≠ '0' ∧ c ≠ '1') ∧ (∀ m ∈ supportedM, ['1'].length ≠ totalLength m) ∧
    ['1'].length ≠ totalLength 8 :=
  ⟨by decide, by decide, by decide +kernel, by decide, ⟨'2', by simp, by decide, by decide⟩, by decide +kernel,
    by decide +kernel⟩
end

section
/-! The family of spec/10: what an operation leaves unchanged, what its answer depends on, and the run of a host's inputs. -/

namespace Sys2Proof.Machine

/-- Settles O51: the next state of an operation is the old one with one response more. -/
theorem frameOfEveryOperation : Obligations.FrameOfEveryOperation := by
  intro i s t h
  rw [exec_eq_answered] at h
  obtain rfl := Host.Outcome.next.inj h
  exact ⟨rfl, rfl, rfl, _, rfl⟩

/-! What an answer depends on (R10, R94, R103). -/

/-- The result of an operation depends on the draw for `inject_random` alone and on the span for `decode` alone. -/
theorem resultOf_congr {i : Instr} {s t : State} (hr : (∀ m p, i ≠ .injectRandom m p) ∨ s.rnd = t.rnd)
    (hc : (∀ m p, i ≠ .decode m p) ∨ s.config = t.config) : resultOf i s = resultOf i t := by
  cases i with
  | totalLength | encode | injectAt => rfl
  | injectRandom m p =>
    have hrnd : s.rnd = t.rnd := hr.resolve_left fun hne => hne m p rfl
    rw [resultOf, resultOf, hrnd]
  | decode m p =>
    have hconfig : s.config = t.config := hc.resolve_left fun hne => hne m p rfl
    rw [resultOf, resultOf, hconfig]

/-- Settles O52: both states are answered with the response word of one result. -/
theorem onlyTheDrawAndTheSpanAreRead : Obligations.OnlyTheDrawAndTheSpanAreRead := by
  intro i s t hr hc
  refine ⟨_, exec_eq_answered i s, ?_⟩
  rw [resultOf_congr hr hc]
  exact exec_eq_answered i t

/-! What an input is answered with as the first after reset (R10). -/

theorem firstResponses_of_step {c : Config} {x : Input} {t : State}
    (h : step { State.reset with config := c, inputs := [x] } = .next t) : firstResponses c x = t.responses := by
  rw [firstResponses, h]

@[simp] theorem firstResponses_reset (c : Config) (a : Option Word) : firstResponses c (.reset a) = [] :=
  firstResponses_of_step (step_reset rfl)

/-- A command that decodes is answered, as the first after reset, as in every state with the same constant and draw. -/
theorem firstResponses_command {w : Word} {i : Instr} (hd : decodeCommand w = .ok i) (s : State) :
    firstResponses s.config (.command w s.rnd) = [packResponse (replyOf (resultOf i s))] := by
  rw [firstResponses_of_step ((step_command rfl hd).trans (exec_eq_answered i _)), State.answered_responses,
    resultOf_congr (t := s) (.inr rfl) (.inr rfl)]
  rfl

theorem firstResponses_illegal {w : Word} {e : DecodeError} (hd : decodeCommand w = .error e) (c : Config) (d : Draw) :
    firstResponses c (.command w d) = [packResponse (faultResponse .illegalOp)] :=
  firstResponses_of_step (step_illegal rfl hd)

/-! The run of a host's inputs (R38, R127). -/

/-- One step takes the oldest input and delivers what that input is answered with as the first after reset. -/
theorem step_answers_oldest {s : State} {x : Input} {rest : List Input} (h : s.inputs = x :: rest) :
    ∃ t, step s = .next t ∧ t.inputs = rest ∧ t.config = s.config ∧
      t.responses = s.responses ++ firstResponses s.config x := by
  cases x with
  | reset a => exact ⟨_, step_reset h, rfl, rfl, by simp⟩
  | command w d =>
    cases hd : decodeCommand w with
    | ok i =>
      refine ⟨_, (step_command h hd).trans (exec_eq_answered i _), rfl, rfl, ?_⟩
      exact congrArg (s.responses ++ ·) (firstResponses_command hd (s.accept d rest)).symm
    | error e =>
      refine ⟨_, step_illegal h hd, rfl, rfl, ?_⟩
      rw [firstResponses_illegal hd]
      rfl

theorem run_succ_of_step {M : Host.Core} {s t : M.State} (h : M.step s = .next t) (k : Nat) :
    M.run (k + 1) s = M.run k t := by
  rw [Host.Core.run, h]

/-- As many steps as there are inputs answer each in order, by induction on the inputs from every state that holds them. -/
theorem run_answers_inputs (xs : List Input) (s : State) (h : s.inputs = xs) :
    ∃ t : State, Sys2Proof.core.run xs.length s = .next t ∧ t.inputs = [] ∧ t.config = s.config ∧
      t.responses = s.responses ++ xs.flatMap (firstResponses s.config) := by
  induction xs generalizing s with
  | nil => exact ⟨s, rfl, h, rfl, by simp⟩
  | cons x xs ih =>
    obtain ⟨u, hstep, hinputs, hconfig, hresponses⟩ := step_answers_oldest h
    obtain ⟨t, hrun, hdone, hconfig', hresponses'⟩ := ih u hinputs
    refine ⟨t, (run_succ_of_step (M := Sys2Proof.core) hstep _).trans hrun, hdone, hconfig'.trans hconfig, ?_⟩
    rw [hresponses', hresponses, hconfig, List.flatMap_cons, List.append_assoc]

/-- Settles O54: the run of the inputs a state holds. -/
theorem eachCommandIsAnsweredAsIfAlone : Obligations.EachCommandIsAnsweredAsIfAlone :=
  fun s => run_answers_inputs s.inputs s rfl

end Sys2Proof.Machine
end

section
/-! The family of spec/20: the map of the position space (R36), and the order in which commands are served (R41). -/

namespace Sys2Proof.Machine

/-! Powers of two (R65). -/

/-- Every set bit of `i` has an index below `i`, so counting the indices below `i` counts them all. -/
theorem setBits_eq_one_iff (i : Nat) : setBits i = 1 ↔ ∃! k, i.testBit k = true := by
  have hcard : ((List.range i).filter i.testBit).toFinset.card = setBits i :=
    List.toFinset_card_of_nodup (List.nodup_range.filter _)
  have hmem (k : Nat) : k ∈ ((List.range i).filter i.testBit).toFinset ↔ i.testBit k = true := by
    have hlt : i.testBit k = true → k < i := fun hk => Nat.lt_two_pow_self.trans_le (Nat.ge_two_pow_of_testBit hk)
    simpa using hlt
  rw [← hcard, Finset.card_eq_one, Finset.singleton_iff_unique_mem]
  simp only [hmem]

theorem existsUnique_testBit_iff (i : Nat) : (∃! k, i.testBit k = true) ↔ ∃ k, i = 2 ^ k := by
  constructor
  · rintro ⟨k, hk, hunique⟩
    refine ⟨k, Nat.eq_of_testBit_eq fun j => ?_⟩
    have hj : i.testBit j = true ↔ k = j := ⟨fun h => (hunique j h).symm, fun h => h ▸ hk⟩
    rw [Nat.testBit_two_pow, Bool.eq_iff_iff, hj, decide_eq_true_iff]
  · rintro ⟨k, rfl⟩
    refine ⟨k, Nat.testBit_two_pow_self, fun j hj => ?_⟩
    simpa [Nat.testBit_two_pow, eq_comm] using hj

theorem isPowerOfTwo_iff (i : Nat) : isPowerOfTwo i = true ↔ ∃ k, i = 2 ^ k := by
  rw [isPowerOfTwo, Bool.and_eq_true, decide_eq_true_iff, beq_iff_eq, setBits_eq_one_iff, existsUnique_testBit_iff,
    and_iff_right_iff_imp]
  rintro ⟨k, rfl⟩
  exact Nat.two_pow_pos k

/-! The kind of a position (R68). -/

theorem kind_eq_overall_iff {n j : Nat} : kind n j = .overall ↔ j = n := by
  unfold kind; split_ifs <;> simp [*]

theorem kind_eq_parity_iff {n j : Nat} : kind n j = .parity ↔ j ≠ n ∧ ∃ k, j = 2 ^ k := by
  rw [← isPowerOfTwo_iff]; unfold kind; split_ifs <;> simp [*]

theorem kind_eq_data_iff {n j : Nat} : kind n j = .data ↔ j ≠ n ∧ ¬ ∃ k, j = 2 ^ k := by
  rw [← isPowerOfTwo_iff]; unfold kind; split_ifs <;> simp [*]

/-- Settles O11: within `1..n`, not being `n` is being below it; the rows of R36's table are evaluated. -/
theorem positionMap : Obligations.PositionMap := by
  refine ⟨fun m j _ _ hj => ?_, by decide +kernel, by decide +kernel, by decide +kernel⟩
  rw [kind_eq_parity_iff, kind_eq_data_iff, lt_iff_le_and_ne, and_iff_right hj]
  exact ⟨kind_eq_overall_iff, .rfl, .rfl⟩

/-- Settles O55: each run delivers what its inputs are answered with alone, and rearranged inputs have rearranged answers. -/
theorem orderOfServiceNeverChangesTheAnswers : Obligations.OrderOfServiceNeverChangesTheAnswers := by
  intro s t hconfig hs ht hperm
  obtain ⟨u, hrun, -, -, hresponses⟩ := eachCommandIsAnsweredAsIfAlone s
  obtain ⟨v, hrun', -, -, hresponses'⟩ := eachCommandIsAnsweredAsIfAlone t
  refine ⟨u, v, hrun, hrun', ?_⟩
  rw [hresponses, hresponses', hs, ht, hconfig]
  exact hperm.flatMap_right _

end Sys2Proof.Machine
end

section
/-! What the command decoder reads from a word, said once, and the round trip of the command format (R46, R48, R49). -/

namespace Sys2Proof

/-! The decoder, one equation per row of the opcode map (R48). -/

section
variable {w : Word}

theorem decodeCommand_totalLength (h : cmdOp w = 0) : decodeCommand w = .ok (.totalLength (cmdM w).toNat) := by
  rw [decodeCommand, h]; rfl

theorem decodeCommand_encode (h : cmdOp w = 1) :
    decodeCommand w = .ok (.encode (cmdM w).toNat (cmdPayload w)) := by
  rw [decodeCommand, h]; rfl

theorem decodeCommand_injectAt (h : cmdOp w = 2) :
    decodeCommand w = .ok (.injectAt (cmdM w).toNat (cmdPos w).toNat (cmdPayload w)) := by
  rw [decodeCommand, h]; rfl

theorem decodeCommand_injectRandom (h : cmdOp w = 3) :
    decodeCommand w = .ok (.injectRandom (cmdM w).toNat (cmdPayload w)) := by
  rw [decodeCommand, h]; rfl

theorem decodeCommand_decode (h : cmdOp w = 4) :
    decodeCommand w = .ok (.decode (cmdM w).toNat (cmdPayload w)) := by
  rw [decodeCommand, h]; rfl

theorem decodeCommand_illegal (h : 5 ≤ (cmdOp w).toNat) : decodeCommand w = .error (.illegalOp (cmdOp w)) := by
  obtain ⟨k, hk⟩ := Nat.exists_eq_add_of_le' h
  rw [decodeCommand, hk]; rfl

end

/-- The rows of the opcode map: five operation numbers, and those above them that select no operation (R48, R55). -/
theorem op_cases (op : BitVec 3) : op = 0 ∨ op = 1 ∨ op = 2 ∨ op = 3 ∨ op = 4 ∨ 5 ≤ op.toNat := by
  revert op; decide

/-! The fields `M` and `POS` hold every number below 64 and no other (R46, R50, R51). -/

@[simp] theorem fitsM_toNat (x : BitVec 6) : fitsM x.toNat = true := decide_eq_true x.isLt

@[simp] theorem fitsPos_toNat (x : BitVec 6) : fitsPos x.toNat = true := decide_eq_true x.isLt

theorem toNat_ofNat_of_fitsM {m : Nat} (h : fitsM m = true) : (BitVec.ofNat 6 m).toNat = m :=
  Nat.mod_eq_of_lt (of_decide_eq_true h)

theorem toNat_ofNat_of_fitsPos {pos : Nat} (h : fitsPos pos = true) : (BitVec.ofNat 6 pos).toNat = pos :=
  Nat.mod_eq_of_lt (of_decide_eq_true h)

/-- Settles O3: every field the operation reads comes back from the word it was packed into. -/
theorem decodeInvertsEncode : Obligations.DecodeInvertsEncode := by
  intro i h
  cases i with
  | totalLength m =>
    rw [encodeCommand, decodeCommand_totalLength (cmdOp_packCommand ..), cmdM_packCommand, toNat_ofNat_of_fitsM h]
  | encode m p =>
    rw [encodeCommand, decodeCommand_encode (cmdOp_packCommand ..), cmdM_packCommand, cmdPayload_packCommand,
      toNat_ofNat_of_fitsM h]
  | injectAt m pos p =>
    obtain ⟨hm, hpos⟩ : fitsM m = true ∧ fitsPos pos = true := Bool.and_eq_true_iff.mp h
    rw [encodeCommand, decodeCommand_injectAt (cmdOp_packCommand ..), cmdM_packCommand, cmdPos_packCommand,
      cmdPayload_packCommand, toNat_ofNat_of_fitsM hm, toNat_ofNat_of_fitsPos hpos]
  | injectRandom m p =>
    rw [encodeCommand, decodeCommand_injectRandom (cmdOp_packCommand ..), cmdM_packCommand, cmdPayload_packCommand,
      toNat_ofNat_of_fitsM h]
  | decode m p =>
    rw [encodeCommand, decodeCommand_decode (cmdOp_packCommand ..), cmdM_packCommand, cmdPayload_packCommand,
      toNat_ofNat_of_fitsM h]

/-- A word whose `OP` is below 5 decodes to a well-formed instruction of that number, whatever its other bits (R48, R55). -/
theorem decodeCommand_of_op_lt {w : Word} (h : (cmdOp w).toNat < 5) :
    ∃ i, decodeCommand w = .ok i ∧ opOf i = cmdOp w ∧ i.wellFormed = true := by
  rcases op_cases (cmdOp w) with hop | hop | hop | hop | hop | hop
  · exact ⟨_, decodeCommand_totalLength hop, hop.symm, fitsM_toNat _⟩
  · exact ⟨_, decodeCommand_encode hop, hop.symm, fitsM_toNat _⟩
  · exact ⟨_, decodeCommand_injectAt hop, hop.symm, by simp [Instr.wellFormed]⟩
  · exact ⟨_, decodeCommand_injectRandom hop, hop.symm, fitsM_toNat _⟩
  · exact ⟨_, decodeCommand_decode hop, hop.symm, fitsM_toNat _⟩
  · omega

/-- A word decodes to an instruction of the number in `OP` alone (R48). -/
theorem opOf_of_decodeCommand {w : Word} {i : Instr} (h : decodeCommand w = .ok i) : opOf i = cmdOp w := by
  rcases Nat.lt_or_ge (cmdOp w).toNat 5 with hop | hop
  · obtain ⟨j, hj, hopOf, -⟩ := decodeCommand_of_op_lt hop
    rw [hj] at h
    cases h
    exact hopOf
  · rw [decodeCommand_illegal hop] at h
    cases h

/-- Settles O4: the top three bits are `OP`, and `OP` selects the row. -/
theorem topThreeBitsSelectTheOperation : Obligations.TopThreeBitsSelectTheOperation := by
  intro w
  rw [← cmdOp_toNat]
  refine ⟨fun h => ?_, fun h => ⟨_, decodeCommand_illegal h, rfl⟩⟩
  obtain ⟨i, hi, hop, hwf⟩ := decodeCommand_of_op_lt h
  exact ⟨i, hi, congrArg BitVec.toNat hop, hwf⟩

/-- Settles O5, by evaluating the decoder on each word. -/
theorem wordsOfTheSpecDecode : Obligations.WordsOfTheSpecDecode := by
  unfold Obligations.WordsOfTheSpecDecode; decide

end Sys2Proof

namespace Sys2Proof.Machine

/-- Settles O1: the three inputs by the step's own laws; the response of `IllegalOp` is evaluated. -/
theorem stepRunsTheDecodedCommand : Obligations.StepRunsTheDecodedCommand := by
  intro s
  refine ⟨step_idle, fun c rest h => step_reset h, fun w d rest h => ⟨fun i hd => step_command h hd, fun e hd => ?_⟩⟩
  have hword : packResponse (faultResponse .illegalOp) = 0x2000000000000000 := by decide
  rw [step_illegal h hd, raiseFault, State.respond_eq_answered, hword]
  rfl

end Sys2Proof.Machine
end

section
/-! What a command word is answered with (R59), which of its bits the answer depends on (R49, R52), and that every answer is
a well-formed response (R47). -/

namespace Sys2Proof.Machine

/-- The outcome of a command word before it is packed: that of the operation it decodes to, or `IllegalOp` (R59 step 1). -/
def commandResult (w : Word) (s : State) : Except Fault Result :=
  match decodeCommand w with
  | .ok i => resultOf i s
  | .error _ => .error .illegalOp

theorem commandResult_ok {w : Word} {i : Instr} (h : decodeCommand w = .ok i) (s : State) :
    commandResult w s = resultOf i s := by
  rw [commandResult, h]

theorem commandResult_error {w : Word} {e : DecodeError} (h : decodeCommand w = .error e) (s : State) :
    commandResult w s = .error .illegalOp := by
  rw [commandResult, h]

section
variable {w : Word} {s : State}

theorem commandResult_totalLength (h : cmdOp w = 0) : commandResult w s = totalLengthResult (cmdM w).toNat :=
  commandResult_ok (decodeCommand_totalLength h) s

theorem commandResult_encode (h : cmdOp w = 1) : commandResult w s = encodeResult (cmdM w).toNat (cmdPayload w) :=
  commandResult_ok (decodeCommand_encode h) s

theorem commandResult_injectAt (h : cmdOp w = 2) :
    commandResult w s = injectAtResult (cmdM w).toNat (cmdPos w).toNat (cmdPayload w) :=
  commandResult_ok (decodeCommand_injectAt h) s

theorem commandResult_injectRandom (h : cmdOp w = 3) :
    commandResult w s = injectRandomResult (cmdM w).toNat s.rnd.toNat (cmdPayload w) :=
  commandResult_ok (decodeCommand_injectRandom h) s

theorem commandResult_decode (h : cmdOp w = 4) :
    commandResult w s = decodeResult s.config.decSpan (cmdM w).toNat (cmdPayload w) :=
  commandResult_ok (decodeCommand_decode h) s

theorem commandResult_illegal (h : 5 ≤ (cmdOp w).toNat) : commandResult w s = .error .illegalOp :=
  commandResult_error (decodeCommand_illegal h) s

end

/-- Every command is taken from the inputs and answered with the one response its outcome packs to. -/
theorem step_command_eq_answered {s : State} {w : Word} {d : Draw} {rest : List Input}
    (h : s.inputs = .command w d :: rest) :
    step s = .next ((s.accept d rest).answered (packResponse (replyOf (commandResult w (s.accept d rest))))) := by
  cases hd : decodeCommand w with
  | ok i => rw [step_command h hd, exec_eq_answered, commandResult_ok hd]
  | error e => rw [step_illegal h hd, commandResult_error hd]; rfl

/-! Well-formed responses (R47, R53, R54, R108, R126). -/

/-- What R49 and R108 say of the values an operation completes with: a length the engine can have, a codeword of that
length, a position not above it, and a tag that agrees with the overall parity. -/
def Result.WellFormed : Result → Prop
  | .length n => 4 ≤ n ∧ n ≤ 71
  | .codeword n cw => (4 ≤ n ∧ n ≤ 71) ∧ cw.length = n
  | .injected n pos cw => (4 ≤ n ∧ n ≤ 71) ∧ cw.length = n ∧ pos ≤ n
  | .decoded n status ovp cw =>
    (4 ≤ n ∧ n ≤ 71) ∧ cw.length = n ∧
      (status = .noError → ovp = false) ∧ (status = .singleCorrected → ovp = true)

/-- The tag is one of R53, and agrees with `OVP` where R108 ties the two. -/
def tagAgrees (status : BitVec 2) (ovp : BitVec 1) : Bool :=
  status != 3 && (status != 0 || ovp == 0) && (status != 1 || ovp == 1)

/-- A response without a fault is well formed when its values, `N` as a number of at most 71 among them, are. -/
theorem responseWellFormed_completed {status : BitVec 2} {ovp : BitVec 1} {n : Nat} {pos : BitVec 6} {payload : Payload}
    (htag : tagAgrees status ovp = true) (hn : 4 ≤ n ∧ n ≤ 71) (hpos : pos.toNat ≤ n)
    (hpayload : payload.toNat < 2 ^ n) :
    responseWellFormed (packResponse ⟨0, status, ovp, BitVec.ofNat 7 n, pos, payload⟩) = true := by
  have hN : (BitVec.ofNat 7 n).toNat = n := Nat.mod_eq_of_lt (by omega)
  rw [tagAgrees] at htag
  simp only [responseWellFormed, unpackResponse_packResponse, rspZero_packResponse, hN, htag, hn, hpos, hpayload]
  rfl

theorem responseWellFormed_faultResponse (f : Fault) : responseWellFormed (packResponse (faultResponse f)) = true := by
  cases f <;> decide

theorem toNat_payloadOfBits_lt (cw : BitString) : (payloadOfBits cw).toNat < 2 ^ cw.length := by
  rw [payloadOfBits, BitVec.toNat_setWidth]
  exact (Nat.mod_le _ _).trans_lt (BitVec.ofBoolListLE cw).isLt

theorem tagAgrees_statusCode {status : Status} {ovp : Bool} (hnoError : status = .noError → ovp = false)
    (hsingle : status = .singleCorrected → ovp = true) : tagAgrees (statusCode status) (BitVec.ofBool ovp) = true := by
  cases status with
  | noError => rw [hnoError rfl]; decide
  | singleCorrected => rw [hsingle rfl]; decide
  | doubleUncorrectable => cases ovp <;> decide

theorem responseWellFormed_responseOf {r : Result} (h : r.WellFormed) :
    responseWellFormed (packResponse (responseOf r)) = true := by
  cases r with
  | length n => exact responseWellFormed_completed (by decide) h (Nat.zero_le _) (Nat.two_pow_pos _)
  | codeword n cw =>
    obtain ⟨hn, rfl⟩ := h
    exact responseWellFormed_completed (by decide) hn (Nat.zero_le _) (toNat_payloadOfBits_lt cw)
  | injected n pos cw =>
    obtain ⟨hn, rfl, hpos⟩ := h
    exact responseWellFormed_completed (by decide) hn ((Nat.mod_le _ _).trans hpos) (toNat_payloadOfBits_lt cw)
  | decoded n status ovp cw =>
    obtain ⟨hn, rfl, hnoError, hsingle⟩ := h
    exact responseWellFormed_completed (tagAgrees_statusCode hnoError hsingle) hn (Nat.zero_le _)
      (toNat_payloadOfBits_lt cw)

/-! Every operation completes with such values, or faults. -/

/-- R73: the lengths of the 63 data lengths that the `M` field can hold and `total_length` accepts. -/
theorem totalLength_bounds : ∀ m ≤ 63, 1 ≤ m → 4 ≤ totalLength m ∧ totalLength m ≤ 71 := by decide +kernel

theorem totalLength_bounds_of_supported {m : Nat} (h : supported m = true) :
    4 ≤ totalLength m ∧ totalLength m ≤ 71 := by
  rw [supported_iff] at h
  exact totalLength_bounds m (by omega) (by omega)

theorem length_encodeBits (m : Nat) (data : BitString) : (encodeBits m data).length = totalLength m := by
  simp [encodeBits, totalLength]

theorem totalLengthResult_wellFormed {m : Nat} {r : Result} (h : totalLengthResult m = .ok r) : r.WellFormed := by
  unfold totalLengthResult at h
  split at h
  next hm =>
    obtain ⟨h1, h63⟩ := legalForTotalLength_iff.mp hm
    cases h
    exact totalLength_bounds m h63 h1
  next => cases h

theorem encodeResult_wellFormed {m : Nat} {p : Payload} {r : Result} (h : encodeResult m p = .ok r) : r.WellFormed := by
  unfold encodeResult at h
  split at h
  next hm =>
    cases h
    exact ⟨totalLength_bounds_of_supported hm, length_encodeBits m _⟩
  next => cases h

theorem injectAtResult_wellFormed {m pos : Nat} {p : Payload} {r : Result} (h : injectAtResult m pos p = .ok r) :
    r.WellFormed := by
  unfold injectAtResult at h
  split at h
  next hm =>
    split at h
    next hpos =>
      cases h
      exact ⟨totalLength_bounds_of_supported hm, by simp, (inRange_iff.mp hpos).2⟩
    next => cases h
  next => cases h

section
variable {span : DecSpan} {m : Nat} {code : BitString}

/-- What the corrector is given for a codeword operand (R100). -/
def correctionOf (span : DecSpan) (m : Nat) (code : BitString) : Except Fault (Status × BitString) :=
  correct code (totalLength m) (syndrome code (parityCount m) (spanEnd span (totalLength m)))
    (overallParity code (totalLength m))

theorem decodeBits_of_correction_ok {status : Status} {cw : BitString} (h : correctionOf span m code = .ok (status, cw)) :
    decodeBits span m code = .ok (.decoded (totalLength m) status (overallParity code (totalLength m)) cw) := by
  rw [correctionOf, totalLength] at h
  simp only [decodeBits, h, totalLength]

theorem decodeBits_of_correction_error {f : Fault} (h : correctionOf span m code = .error f) :
    decodeBits span m code = .error f := by
  rw [correctionOf, totalLength] at h
  simp only [decodeBits, h]

/-- The decoder's tag agrees with the overall parity it was classified by, and the corrector keeps the length (R106, R108). -/
theorem decodeBits_wellFormed {r : Result} (hn : 4 ≤ totalLength m ∧ totalLength m ≤ 71)
    (hlen : code.length = totalLength m) (h : decodeBits span m code = .ok r) : r.WellFormed := by
  rcases correct_cases code (totalLength m) (syndrome code (parityCount m) (spanEnd span (totalLength m)))
    (overallParity code (totalLength m)) with ⟨-, hovp, hc⟩ | ⟨-, hovp, -, hc⟩ | ⟨-, -, -, hc⟩ | ⟨-, hc⟩
  · cases (decodeBits_of_correction_ok hc).symm.trans h
    exact ⟨hn, hlen, fun _ => hovp, nofun⟩
  · cases (decodeBits_of_correction_ok hc).symm.trans h
    exact ⟨hn, (length_flipBit _ _).trans hlen, nofun, fun _ => hovp⟩
  · cases (decodeBits_of_correction_error hc).symm.trans h
  · cases (decodeBits_of_correction_ok hc).symm.trans h
    exact ⟨hn, hlen, nofun, nofun⟩

end

theorem decodeResult_wellFormed {span : DecSpan} {m : Nat} {p : Payload} {r : Result}
    (h : decodeResult span m p = .ok r) : r.WellFormed := by
  unfold decodeResult at h
  split at h
  next hm => exact decodeBits_wellFormed (totalLength_bounds_of_supported hm) (length_codeOperand m p) h
  next => cases h

theorem resultOf_wellFormed {i : Instr} {s : State} {r : Result} (h : resultOf i s = .ok r) : r.WellFormed := by
  cases i with
  | totalLength m => exact totalLengthResult_wellFormed h
  | encode m p => exact encodeResult_wellFormed h
  | injectAt m pos p => exact injectAtResult_wellFormed h
  | injectRandom m p => exact injectAtResult_wellFormed (pos := s.rnd.toNat) h
  | decode m p => exact decodeResult_wellFormed h

/-- The response to every command word, in every state, is well formed. -/
theorem responseWellFormed_replyOf_commandResult (w : Word) (s : State) :
    responseWellFormed (packResponse (replyOf (commandResult w s))) = true := by
  cases hd : decodeCommand w with
  | error e => rw [commandResult_error hd]; exact responseWellFormed_faultResponse .illegalOp
  | ok i =>
    rw [commandResult_ok hd]
    cases hr : resultOf i s with
    | error f => exact responseWellFormed_faultResponse f
    | ok r => exact responseWellFormed_responseOf (resultOf_wellFormed hr)

theorem State.Inv.answered {s : State} {w : Word} (hs : s.Inv) (hw : responseWellFormed w = true) : (s.answered w).Inv := by
  simp_all [State.Inv]

/-- Settles O48: only a command adds a response, and that one is well formed whatever the word and the state. -/
theorem everyStepKeepsResponsesWellFormed : Obligations.EveryStepKeepsResponsesWellFormed := by
  intro s t hs hstep
  cases h : s.inputs with
  | nil =>
    rw [step_idle h] at hstep
    cases hstep
    exact hs
  | cons x rest =>
    cases x with
    | reset c =>
      rw [step_reset h] at hstep
      cases hstep
      exact hs
    | command w d =>
      rw [step_command_eq_answered h] at hstep
      cases hstep
      exact State.Inv.answered (s := s.accept d rest) hs (responseWellFormed_replyOf_commandResult w _)

/-! The bits an operation reads (R49, R52, R55). -/

/-- Cutting a payload to `len` bits keeps the bits below `len` and clears the others. -/
theorem getLsbD_cutPayload (p : Payload) (len i : Nat) :
    (cutPayload p len).getLsbD i = (p.getLsbD i && decide (i < len)) := by
  rw [cutPayload, BitVec.getLsbD_and, BitVec.getLsbD_ofNat, Nat.testBit_two_pow_sub_one]
  by_cases h : i < 39
  · simp [h]
  · simp [BitVec.getLsbD_of_ge p i (by omega)]

/-- An operand of `len` bits depends only on the payload cut to `len` bits. -/
theorem bitsOfPayload_congr {len : Nat} {p q : Payload} (h : cutPayload p len = cutPayload q len) :
    bitsOfPayload len p = bitsOfPayload len q := by
  refine List.map_congr_left fun i hi => ?_
  simpa [getLsbD_cutPayload, List.mem_range.mp hi] using congrArg (·.getLsbD i) h

theorem encodeResult_congr {m : Nat} {p q : Payload} (h : cutPayload p m = cutPayload q m) :
    encodeResult m p = encodeResult m q := by
  rw [encodeResult, encodeResult, dataOperand, dataOperand, bitsOfPayload_congr h]

section
variable {m : Nat} {p q : Payload} (h : cutPayload p (totalLength m) = cutPayload q (totalLength m))
include h

theorem codeOperand_congr : codeOperand m p = codeOperand m q := bitsOfPayload_congr h

theorem injectAtResult_congr (pos : Nat) : injectAtResult m pos p = injectAtResult m pos q := by
  rw [injectAtResult, injectAtResult, codeOperand_congr h]

theorem injectRandomResult_congr (draw : Nat) : injectRandomResult m draw p = injectRandomResult m draw q := by
  rw [injectRandomResult, injectRandomResult, codeOperand_congr h]

theorem decodeResult_congr (span : DecSpan) : decodeResult span m p = decodeResult span m q := by
  rw [decodeResult, decodeResult, codeOperand_congr h]

end

/-- The outcome of a command word depends only on the bits its operation reads. -/
theorem commandResult_congr {w v : Word} (h : SameReadBits w v) (s : State) : commandResult w s = commandResult v s := by
  obtain ⟨hop, hm, hdata, hpos, hcode⟩ := h
  rcases op_cases (cmdOp w) with hw | hw | hw | hw | hw | hw
  · rw [commandResult_totalLength hw, commandResult_totalLength (hop ▸ hw), hm (by simp [hw])]
  · rw [commandResult_encode hw, commandResult_encode (hop ▸ hw), ← hm (by simp [hw]), encodeResult_congr (hdata hw)]
  · rw [commandResult_injectAt hw, commandResult_injectAt (hop ▸ hw), ← hm (by simp [hw]), ← hpos hw,
      injectAtResult_congr (hcode (.inl hw))]
  · rw [commandResult_injectRandom hw, commandResult_injectRandom (hop ▸ hw), ← hm (by simp [hw]),
      injectRandomResult_congr (hcode (.inr (.inl hw)))]
  · rw [commandResult_decode hw, commandResult_decode (hop ▸ hw), ← hm (by simp [hw]),
      decodeResult_congr (hcode (.inr (.inr hw)))]
  · rw [commandResult_illegal hw, commandResult_illegal (hop ▸ hw)]

/-- Only `inject_random` reads the draw (R94). -/
theorem commandResult_accept_draw {w : Word} (h : cmdOp w ≠ 3) (s : State) (d e : Draw) (rest : List Input) :
    commandResult w (s.accept d rest) = commandResult w (s.accept e rest) := by
  cases hd : decodeCommand w with
  | error f => rw [commandResult_error hd, commandResult_error hd]
  | ok i =>
    rw [commandResult_ok hd, commandResult_ok hd]
    refine resultOf_congr (.inl fun m p hi => h ?_) (.inr rfl)
    rw [← opOf_of_decodeCommand hd, hi]
    rfl

/-- Settles O6: the outcome is the same, so the one response is; the draw stays on `RND` and is read by `inject_random`
alone. -/
theorem unreadBitsNeverChangeTheAnswer : Obligations.UnreadBitsNeverChangeTheAnswer := by
  intro s w v d rest
  refine ⟨fun h => ?_, fun h e => ⟨_, _, step_command_eq_answered rfl, step_command_eq_answered rfl, ?_⟩⟩
  · rw [step_command_eq_answered rfl, step_command_eq_answered rfl, commandResult_congr h]
    rfl
  · rw [commandResult_accept_draw h _ e d]
    rfl

end Sys2Proof.Machine
end

section
/-! The packed form of a text command (R57): what the assembler makes of a text, and the text that has no packed form. -/

namespace Sys2Proof.Machine

/-! Text and BitStrings (R8). -/

@[simp] theorem length_textOfBits (bits : BitString) : (textOfBits bits).length = bits.length := by
  simp [textOfBits]

theorem bitsOfText_textOfBits (bits : BitString) : bitsOfText (textOfBits bits) = some bits := by
  induction bits with
  | nil => rfl
  | cons b bits ih =>
    rw [textOfBits] at ih
    cases b <;> simp [textOfBits, bitsOfText, bitOfChar, ih]

theorem bitsOfText_cons (c : Char) (cs : List Char) :
    bitsOfText (c :: cs) = (bitOfChar c).bind fun b => (bitsOfText cs).map (b :: ·) := by
  cases h : bitOfChar c <;> cases h' : bitsOfText cs <;> simp [bitsOfText, h, h']

/-- A text with a character other than 0 and 1 stands for no BitString. -/
theorem bitsOfText_eq_none {text : List Char} (h : ∃ c ∈ text, c ≠ '0' ∧ c ≠ '1') : bitsOfText text = none := by
  induction text with
  | nil => simp at h
  | cons a text ih =>
    obtain ⟨c, hc, h0, h1⟩ := h
    rcases List.mem_cons.mp hc with rfl | hc
    · simp [bitsOfText_cons, bitOfChar, h0, h1]
    · simp [bitsOfText_cons, ih ⟨c, hc, h0, h1⟩]

theorem length_of_bitsOfText {text : List Char} {bits : BitString} (h : bitsOfText text = some bits) :
    bits.length = text.length := by
  induction text generalizing bits with
  | nil => cases h; rfl
  | cons a text ih =>
    rw [bitsOfText_cons, Option.bind_eq_some_iff] at h
    obtain ⟨b, -, hbits⟩ := h
    obtain ⟨bs, hbs, rfl⟩ := Option.map_eq_some_iff.mp hbits
    simp [ih hbs]

/-- A BitString of at most 39 bits comes back from its payload (R52). -/
theorem bitsOfPayload_payloadOfBits {bits : BitString} (h : bits.length ≤ 39) :
    bitsOfPayload bits.length (payloadOfBits bits) = bits := by
  refine bitString_ext (length_bitsOfPayload _ _) fun j h1 hj => ?_
  rw [length_bitsOfPayload] at hj
  rw [readSlot_bitsOfPayload _ ⟨h1, hj⟩, getLsbD_payloadOfBits, Nat.sub_add_cancel h1, decide_eq_true (by omega),
    Bool.true_and]

/-! The length a string stands for (R57). -/

theorem totalLength_le_of_supported {m : Nat} (h : m = 8 ∨ m = 16 ∨ m = 32) : totalLength m ≤ nMax := by
  rcases h with rfl | rfl | rfl <;> decide +kernel

theorem lengthOfCode_totalLength {m : Nat} (h : m = 8 ∨ m = 16 ∨ m = 32) : lengthOfCode (totalLength m) = some m := by
  rcases h with rfl | rfl | rfl <;> decide +kernel

theorem lengthOfCode_eq_none {len : Nat} (h : ∀ m ∈ supportedM, len ≠ totalLength m) : lengthOfCode len = none := by
  rw [lengthOfCode, List.find?_eq_none]
  intro m hm
  simpa using (h m hm).symm

/-! The packed form is the command word of the command that is written (R46, R57). -/

theorem packText_eq_some {m pos : Nat} {bits : BitString} (op : BitVec 3) (hm : m ≤ mFieldMax) (hpos : pos < 64)
    (hbits : bits.length ≤ nMax) :
    packText op m pos bits = some (packCommand op (BitVec.ofNat 6 m) (BitVec.ofNat 6 pos) 0 (payloadOfBits bits)) :=
  if_pos ⟨hm, hpos, hbits⟩

theorem assemble_totalLength {m : Nat} (hm : m ≤ 63) :
    assemble (.totalLength m) = some (encodeCommand (.totalLength m)) :=
  packText_eq_some 0 hm (by decide) (Nat.zero_le _)

theorem assemble_encode {bits : BitString} (h : bits.length ≤ 39) :
    assemble (.encode (textOfBits bits)) = some (encodeCommand (.encode bits.length (payloadOfBits bits))) := by
  rw [assemble, bitsOfText_textOfBits]
  exact packText_eq_some 1 (h.trans (by decide)) (by decide) h

section
variable {bits : BitString} {m : Nat} (hm : m = 8 ∨ m = 16 ∨ m = 32) (hlen : bits.length = totalLength m)
include hm hlen

theorem packText_code (op : BitVec 3) {pos : Nat} (hpos : pos < 64) :
    packText op m pos bits = some (packCommand op (BitVec.ofNat 6 m) (BitVec.ofNat 6 pos) 0 (payloadOfBits bits)) :=
  packText_eq_some op (by rw [mFieldMax]; omega) hpos (hlen.trans_le (totalLength_le_of_supported hm))

theorem assemble_injectAt {pos : Nat} (hpos : pos < 64) :
    assemble (.injectAt (textOfBits bits) pos) = some (encodeCommand (.injectAt m pos (payloadOfBits bits))) := by
  rw [assemble, bitsOfText_textOfBits, length_textOfBits, hlen, lengthOfCode_totalLength hm]
  exact packText_code hm hlen 2 hpos

theorem assemble_injectRandom :
    assemble (.injectRandom (textOfBits bits)) = some (encodeCommand (.injectRandom m (payloadOfBits bits))) := by
  rw [assemble, bitsOfText_textOfBits, length_textOfBits, hlen, lengthOfCode_totalLength hm]
  exact packText_code hm hlen 3 (by decide)

theorem assemble_decode :
    assemble (.decode (textOfBits bits) m) = some (encodeCommand (.decode m (payloadOfBits bits))) := by
  rw [assemble, bitsOfText_textOfBits]
  exact (if_pos hlen.symm).trans (packText_code hm hlen 4 (by decide))

end

/-! Text that has no packed form (R130, U1, U2). -/

theorem assemble_eq_none_of_bitsOfText {text : List Char} (h : bitsOfText text = none) (pos m : Nat) :
    assemble (.encode text) = none ∧ assemble (.injectAt text pos) = none ∧
    assemble (.injectRandom text) = none ∧ assemble (.decode text m) = none := by
  simp [assemble, h]

theorem assemble_inject_eq_none_of_lengthOfCode {text : List Char} (h : lengthOfCode text.length = none) (pos : Nat) :
    assemble (.injectAt text pos) = none ∧ assemble (.injectRandom text) = none := by
  cases hb : bitsOfText text <;> simp [assemble, h, hb]

theorem assemble_decode_eq_none_of_length {text : List Char} {m : Nat} (h : text.length ≠ totalLength m) :
    assemble (.decode text m) = none := by
  rw [assemble]
  cases hb : bitsOfText text with
  | none => rfl
  | some bits => exact if_neg fun hlen => h ((length_of_bitsOfText hb).symm.trans hlen.symm)

/-- A text whose packed form is the command word of a command that fits the format decodes to that command. -/
theorem decodes_of_assemble {c : TextCommand} {i : Instr} (h : assemble c = some (encodeCommand i))
    (hi : i.wellFormed = true) : ∃ w, assemble c = some w ∧ decodeCommand w = .ok i :=
  ⟨_, h, decodeInvertsEncode i hi⟩

/-- Settles O56: the packed form is the command word of the command written, and decoding inverts encoding. -/
theorem assembledTextDecodesToItsCommand : Obligations.AssembledTextDecodesToItsCommand := by
  refine ⟨fun m hm => ?_, fun bits h => ?_, fun bits m pos hm hlen hpos => ?_,
    fun text pos m h => assemble_eq_none_of_bitsOfText (bitsOfText_eq_none h) pos m,
    fun text pos h => assemble_inject_eq_none_of_lengthOfCode (lengthOfCode_eq_none h) pos,
    fun text m h => assemble_decode_eq_none_of_length h⟩
  · exact decodes_of_assemble (assemble_totalLength hm) (decide_eq_true (by omega))
  · exact ⟨_, assemble_encode h, decodeInvertsEncode _ (decide_eq_true (by omega)), bitsOfPayload_payloadOfBits h⟩
  · have hfits : fitsM m = true := decide_eq_true (by omega)
    have hfitsBoth : (fitsM m && fitsPos pos) = true := Bool.and_eq_true_iff.mpr ⟨hfits, decide_eq_true hpos⟩
    exact ⟨decodes_of_assemble (assemble_injectAt hm hlen hpos) hfitsBoth,
      decodes_of_assemble (assemble_injectRandom hm hlen) hfits, decodes_of_assemble (assemble_decode hm hlen) hfits⟩

end Sys2Proof.Machine
end

section
/-! The family of spec/40: powers of two, the parity count, the counting facts, data positions, coverage and the operation
`total_length` (R65 to R74). -/

namespace Sys2Proof.Machine

/-! Powers of two (R65). -/

/-- Settles O7: a power of two is a number with one set bit, and no negative integer is one. -/
theorem powerOfTwoMeansOneSetBit : Obligations.PowerOfTwoMeansOneSetBit := by
  refine ⟨fun i => ?_, isPowerOfTwo_iff⟩
  cases i with
  | negSucc i => simp [isPowerOfTwoInt]
  | ofNat i =>
    rw [isPowerOfTwoInt, isPowerOfTwo_iff, Int.ofNat_eq_natCast, Int.toNat_natCast, existsUnique_testBit_iff, iff_and_self]
    rintro ⟨k, rfl⟩
    exact Int.natCast_pos.mpr (Nat.two_pow_pos k)

/-- A number strictly between two neighbouring powers of two is no power of two. -/
theorem isPowerOfTwo_eq_false_of_between {k j : Nat} (hlow : 2 ^ k < j) (hhigh : j < 2 ^ (k + 1)) :
    isPowerOfTwo j = false := by
  refine Bool.eq_false_iff.mpr fun hj => ?_
  obtain ⟨e, rfl⟩ := (isPowerOfTwo_iff j).mp hj
  rw [Nat.pow_lt_pow_iff_right Nat.one_lt_two] at hlow hhigh
  omega

/-! The parity count (R66). -/

/-- The search answers the least `r`, when it starts at or below it and has the steps to reach a number that meets the bound. -/
theorem parityCountFrom_spec {m fuel r : Nat} (hbelow : ∀ k < r, 2 ^ k < m + k + 1)
    (hreach : m + (r + fuel) + 1 ≤ 2 ^ (r + fuel)) :
    m + parityCountFrom m fuel r + 1 ≤ 2 ^ parityCountFrom m fuel r ∧
      ∀ k < parityCountFrom m fuel r, 2 ^ k < m + k + 1 := by
  induction fuel generalizing r with
  | zero => exact ⟨hreach, hbelow⟩
  | succ fuel ih =>
    rw [parityCountFrom]
    split_ifs with hr
    · refine ih (fun k hk => ?_) (by rwa [Nat.succ_add_eq_add_succ])
      rcases Nat.lt_succ_iff_lt_or_eq.mp hk with hk | rfl
      · exact hbelow k hk
      · exact hr
    · exact ⟨Nat.le_of_not_lt hr, hbelow⟩

/-- R66, and that the search has enough steps: `m + 1` is a number that meets the bound. -/
theorem parityCount_spec (m : Nat) :
    m + parityCount m + 1 ≤ 2 ^ parityCount m ∧ ∀ k < parityCount m, 2 ^ k < m + k + 1 := by
  refine parityCountFrom_spec (by simp) ?_
  have hm : m < 2 ^ m := Nat.lt_two_pow_self
  rw [Nat.zero_add, Nat.pow_succ]
  omega

theorem totalLength_le_two_pow (m : Nat) : totalLength m ≤ 2 ^ parityCount m := (parityCount_spec m).1

theorem two_pow_lt_of_lt_parityCount {m k : Nat} (h : k < parityCount m) : 2 ^ k < m + k + 1 := (parityCount_spec m).2 k h

/-- Settles O8: the search's least `r`; the three supported lengths are evaluated. -/
theorem parityCountIsMinimal : Obligations.ParityCountIsMinimal :=
  ⟨fun m _ => parityCount_spec m, by decide, by decide, by decide⟩

/-- Settles O9, by evaluating the 64 rows. -/
theorem lengthTable : Obligations.LengthTable := by
  unfold Obligations.LengthTable; decide +kernel

/-- The least `r` of a longer data word is no smaller: it meets the bound of the shorter one too. -/
theorem parityCount_mono {m m' : Nat} (h : m ≤ m') : parityCount m ≤ parityCount m' := by
  by_contra hlt
  have hbelow := two_pow_lt_of_lt_parityCount (Nat.lt_of_not_le hlt)
  have hmeets : m' + parityCount m' + 1 ≤ 2 ^ parityCount m' := totalLength_le_two_pow m'
  omega

theorem totalLength_strictMono {m m' : Nat} (h : m < m') : totalLength m < totalLength m' := by
  have := parityCount_mono h.le
  rw [totalLength, totalLength]
  omega

theorem totalLength_lt_two_pow_of_supported {m : Nat} (h : m ∈ supportedM) : totalLength m < 2 ^ parityCount m := by
  revert m; decide

/-! Parity positions (R69). -/

theorem mem_parityPositions {r p : Nat} : p ∈ parityPositions r ↔ ∃ i < r, 2 ^ i = p := by
  simp [parityPositions]

@[simp] theorem length_parityPositions (r : Nat) : (parityPositions r).length = r := by simp [parityPositions]

theorem pairwise_lt_parityPositions (r : Nat) : (parityPositions r).Pairwise (· < ·) :=
  List.pairwise_lt_range.map _ fun _ _ h => Nat.pow_lt_pow_right Nat.one_lt_two h

/-- Two different numbers below `2^r` differ in a bit below `r`, so their covering sets differ. -/
theorem exists_parityPosition_covers_ne {r j k : Nat} (hj : j < 2 ^ r) (hk : k < 2 ^ r) (hne : j ≠ k) :
    ∃ p ∈ parityPositions r, covers p j ≠ covers p k := by
  obtain ⟨i, hi⟩ := Nat.exists_testBit_ne_of_ne hne
  have hir : i < r := by
    by_contra hri
    have hpow : 2 ^ r ≤ 2 ^ i := Nat.pow_le_pow_right Nat.two_pos (Nat.le_of_not_lt hri)
    exact hi ((Nat.testBit_lt_two_pow (hj.trans_le hpow)).trans (Nat.testBit_lt_two_pow (hk.trans_le hpow)).symm)
  refine ⟨2 ^ i, mem_parityPositions.mpr ⟨i, hir, rfl⟩, ?_⟩
  rwa [covers_two_pow, covers_two_pow]

/-- The number 0 is covered by nothing, so any other below `2^r` is covered by a parity position. -/
theorem exists_parityPosition_covers {r j : Nat} (hj : j < 2 ^ r) (hpos : 1 ≤ j) :
    ∃ p ∈ parityPositions r, covers p j = true := by
  obtain ⟨p, hp, hcovers⟩ := exists_parityPosition_covers_ne hj (Nat.two_pow_pos r) (Nat.ne_of_gt hpos)
  have hzero : covers p 0 = false := by simp [covers]
  exact ⟨p, hp, by simpa [hzero] using hcovers⟩

theorem covers_two_pow_self_eq_false {r p : Nat} (hp : p ∈ parityPositions r) : covers p (2 ^ r) = false := by
  obtain ⟨i, hi, rfl⟩ := mem_parityPositions.mp hp
  rw [covers_two_pow, Nat.testBit_two_pow_of_ne (Nat.ne_of_gt hi)]

theorem testBit_foldr_or (l : List Nat) (i : Nat) :
    (l.foldr (· ||| ·) 0).testBit i = true ↔ ∃ p ∈ l, p.testBit i = true := by
  induction l with
  | nil => simp
  | cons p l ih => simp [Nat.testBit_or, ih]

/-- R74 (h): a number below `2^r` is the OR of the parity positions that cover it, which are its set bits. -/
theorem foldr_or_covering_parityPositions {r j : Nat} (hj : j < 2 ^ r) :
    ((parityPositions r).filter (fun p => covers p j)).foldr (· ||| ·) 0 = j := by
  refine Nat.eq_of_testBit_eq fun i => Bool.eq_iff_iff.mpr ?_
  rw [testBit_foldr_or]
  constructor
  · rintro ⟨p, hp, hi⟩
    obtain ⟨hmem, hcovers⟩ := List.mem_filter.mp hp
    obtain ⟨e, -, rfl⟩ := mem_parityPositions.mp hmem
    obtain rfl : e = i := of_decide_eq_true (Nat.testBit_two_pow ▸ hi)
    rwa [covers_two_pow] at hcovers
  · intro hi
    have hir : i < r := (Nat.pow_lt_pow_iff_right Nat.one_lt_two).mp ((Nat.ge_two_pow_of_testBit hi).trans_lt hj)
    exact ⟨2 ^ i, List.mem_filter.mpr ⟨mem_parityPositions.mpr ⟨i, hir, rfl⟩, (covers_two_pow i j).trans hi⟩,
      Nat.testBit_two_pow_self⟩

theorem pairwise_lt_positions (hi : Nat) : (positions hi).Pairwise (· < ·) := List.pairwise_lt_range' 1

@[simp] theorem length_positions (hi : Nat) : (positions hi).length = hi := List.length_range'

/-! The counting facts (R74), for a data length of at least 1. -/

section
variable {m : Nat} (hm : 1 ≤ m)
include hm

theorem two_le_parityCount : 2 ≤ parityCount m := by
  have hbound := totalLength_le_two_pow m
  rw [totalLength] at hbound
  by_contra hlt
  obtain hr | hr : parityCount m = 0 ∨ parityCount m = 1 := by omega
  all_goals rw [hr] at hbound; omega

theorem four_le_totalLength : 4 ≤ totalLength m := by
  have hr := two_le_parityCount hm
  rw [totalLength]
  omega

/-- R74 (b): minimality of `r` from below, its bound from above. -/
theorem two_pow_lt_totalLength_pred :
    2 ^ (parityCount m - 1) < totalLength m - 1 ∧ totalLength m - 1 < 2 ^ parityCount m := by
  have hr := two_le_parityCount hm
  have hbelow := two_pow_lt_of_lt_parityCount (m := m) (k := parityCount m - 1) (by omega)
  have hbound := totalLength_le_two_pow m
  rw [totalLength] at hbound ⊢
  omega

theorem parityPosition_le {p : Nat} (hp : p ∈ parityPositions (parityCount m)) : p ≤ totalLength m - 2 := by
  obtain ⟨i, hi, rfl⟩ := mem_parityPositions.mp hp
  have hpow : 2 ^ i ≤ 2 ^ (parityCount m - 1) := Nat.pow_le_pow_right Nat.two_pos (by omega)
  have := (two_pow_lt_totalLength_pred hm).1
  omega

/-- R74 (c): two increasing lists with the same members. -/
theorem filter_isPowerOfTwo_positions :
    (positions (totalLength m - 1)).filter isPowerOfTwo = parityPositions (parityCount m) := by
  refine ((pairwise_lt_positions _).filter _).eq_of_mem_iff (pairwise_lt_parityPositions _) fun j => ?_
  rw [List.mem_filter, mem_positions, isPowerOfTwo_iff]
  constructor
  · rintro ⟨⟨-, hj⟩, e, rfl⟩
    exact mem_parityPositions.mpr ⟨e, (Nat.pow_lt_pow_iff_right Nat.one_lt_two).mp
      (hj.trans_lt (two_pow_lt_totalLength_pred hm).2), rfl⟩
  · intro hp
    have hle := parityPosition_le hm hp
    obtain ⟨e, -, rfl⟩ := mem_parityPositions.mp hp
    exact ⟨⟨Nat.two_pow_pos e, by omega⟩, e, rfl⟩

/-- R74 (d): of the `m + r` positions below `n`, the `r` parity positions are taken away. -/
theorem length_dataPositions : (dataPositions (totalLength m)).length = m := by
  have hsplit := List.length_eq_length_filter_add (l := positions (totalLength m - 1)) isPowerOfTwo
  rw [filter_isPowerOfTwo_positions hm, length_positions, length_parityPositions] at hsplit
  rw [dataPositions]
  have hn : totalLength m - 1 = m + parityCount m := rfl
  omega

theorem kind_totalLength_pred : kind (totalLength m) (totalLength m - 1) = .data := by
  obtain ⟨hlow, hhigh⟩ := two_pow_lt_totalLength_pred hm
  have hr := two_le_parityCount hm
  have hn := four_le_totalLength hm
  have hpow : isPowerOfTwo (totalLength m - 1) = false :=
    isPowerOfTwo_eq_false_of_between hlow (by rwa [Nat.sub_add_cancel (by omega)])
  rw [kind_eq_data_iff, ← isPowerOfTwo_iff, hpow]
  exact ⟨by omega, Bool.false_ne_true⟩

end

theorem totalLength_eq_two_pow_iff (m : Nat) :
    totalLength m = 2 ^ parityCount m ↔ m = 2 ^ parityCount m - parityCount m - 1 := by
  have : parityCount m < 2 ^ parityCount m := Nat.lt_two_pow_self
  rw [totalLength]
  omega

/-- Settles O10, from the lemma for each of R74 (a) to (h). -/
theorem countingFacts : Obligations.CountingFacts := by
  intro m hm r n
  have hle : n ≤ 2 ^ r := totalLength_le_two_pow m
  have hbetween : 2 ^ (r - 1) < n - 1 ∧ n - 1 < 2 ^ r := two_pow_lt_totalLength_pred hm
  have hbelow {j : Nat} (hj : j ≤ n - 1) : j < 2 ^ r := hj.trans_lt hbetween.2
  refine ⟨two_le_parityCount hm, hbetween, filter_isPowerOfTwo_positions hm, length_dataPositions hm,
    ⟨kind_totalLength_pred hm, fun p hp => parityPosition_le hm hp⟩,
    ⟨hle, totalLength_eq_two_pow_iff m, fun hn => ⟨Nat.and_two_pow_sub_one_of_lt_two_pow hn, ?_⟩, fun hn p hp => ?_,
      totalLength_lt_two_pow_of_supported⟩,
    fun m' h => ⟨totalLength_strictMono h, parityCount_mono h.le⟩,
    fun j _ hj => hj.trans hle,
    fun j _ hj => ⟨hbelow hj, foldr_or_covering_parityPositions (hbelow hj)⟩,
    fun j k _ hj _ hk hne => exists_parityPosition_covers_ne (hbelow hj) (hbelow hk) hne⟩
  · exact exists_parityPosition_covers hn ((four_le_totalLength hm).trans' (by decide))
  · rw [hn]
    exact covers_two_pow_self_eq_false hp

/-! Data positions in order (R70). -/

/-- Below the entry at index `k` of the selected positions, exactly `k` positions are selected; by induction on the end. -/
theorem length_filter_positions_below {sel : Nat → Bool} {hi k j : Nat}
    (h : ((positions hi).filter sel)[k]? = some j) : ((positions (j - 1)).filter sel).length = k := by
  induction hi with
  | zero => simp [positions] at h
  | succ hi ih =>
    rw [positions_succ, List.filter_append, List.getElem?_append] at h
    split_ifs at h with hk
    · exact ih h
    · obtain ⟨hlast, hmem⟩ := List.getElem?_eq_some_iff.mp h
      have hj : j = hi + 1 := List.mem_singleton.mp (List.mem_filter.mp (hmem ▸ List.getElem_mem hlast)).1
      have hone : ([hi + 1].filter sel).length ≤ 1 := List.length_filter_le ..
      rw [hj, Nat.add_sub_cancel]
      omega

theorem dpos_eq_getElem {m k : Nat} (hk : 1 ≤ k ∧ k ≤ (dataPositions (totalLength m)).length) :
    dpos m k = some ((dataPositions (totalLength m))[k - 1]'(by omega)) := by
  obtain ⟨i, rfl⟩ := Nat.exists_eq_add_of_le' hk.1
  rw [dpos, List.getElem?_eq_getElem (by omega)]
  rfl

theorem mem_dataPositions {n j : Nat} : j ∈ dataPositions n ↔ (1 ≤ j ∧ j ≤ n - 1) ∧ isPowerOfTwo j = false := by
  simp [dataPositions, mem_positions]

/-- Settles O12: the list of data positions has `m` entries, and its index counts the entries before it. -/
theorem dataPositionsInOrder : Obligations.DataPositionsInOrder := by
  refine ⟨fun m k hm h1 hk => ?_, fun m hm => length_dataPositions hm, by decide +kernel⟩
  have hlen : k - 1 < (dataPositions (totalLength m)).length := by
    rw [length_dataPositions hm]
    omega
  obtain ⟨⟨hj1, hjn⟩, hpow⟩ := mem_dataPositions.mp (List.getElem_mem hlen)
  refine ⟨_, dpos_eq_getElem ⟨h1, by omega⟩, hj1, hjn, fun e he => ?_, ?_⟩
  · exact Bool.eq_false_iff.mp hpow ((isPowerOfTwo_iff _).mpr ⟨e, he⟩)
  · exact length_filter_positions_below (List.getElem?_eq_getElem hlen)

/-! Coverage (R71). -/

theorem mem_cover_two_pow {i hi j : Nat} : j ∈ cover (2 ^ i) hi ↔ 1 ≤ j ∧ j ≤ hi ∧ j.testBit i = true := by
  rw [cover, List.mem_filter, mem_positions, covers_two_pow, and_assoc]

/-- Settles O13: coverage by `2^i` is bit `i` of the position; the fifteen sets are evaluated. -/
theorem coverageSets : Obligations.CoverageSets := by
  refine ⟨fun i hi j => ⟨mem_cover.trans and_assoc, mem_cover_two_pow⟩,
    fun i hi h => mem_cover_two_pow.mpr ⟨Nat.two_pow_pos i, h, Nat.testBit_two_pow_self⟩,
    fun i k hi hne => two_pow_not_mem_cover hne, fun i n hn => ⟨?_, fun hmem => ?_⟩,
    by decide +kernel, by decide +kernel, by decide +kernel⟩
  · rw [mem_cover]
    exact and_iff_right ⟨hn, le_rfl⟩
  · obtain ⟨⟨-, hle⟩, -⟩ := mem_cover.mp hmem
    omega

/-! The operation `total_length` (R67). -/

theorem totalLengthResult_ok {m : Nat} (h : 1 ≤ m ∧ m ≤ 63) : totalLengthResult m = .ok (.length (totalLength m)) :=
  if_pos (legalForTotalLength_iff.mpr h)

theorem decodeCommand_of_op_zero {w : Word} (h : w.toNat / 2 ^ 61 = 0) :
    decodeCommand w = .ok (.totalLength (w.toNat / 2 ^ 55 % 2 ^ 6)) := by
  have hop : cmdOp w = 0 := BitVec.eq_of_toNat_eq ((cmdOp_toNat w).trans h)
  rw [decodeCommand_totalLength hop, cmdM_toNat]

/-- Settles O14: the response carries the result of a legal length; the words of R67 are evaluated. -/
theorem totalLengthCompletes : Obligations.TotalLengthCompletes := by
  refine ⟨fun s m h1 h63 => ?_, fun s => ?_, fun w => decodeCommand_of_op_zero, by decide +kernel, fun c d => ?_⟩
  · obtain ⟨hle, hleast⟩ := parityCount_spec m
    have hn : totalLength m ≤ 71 := (totalLength_bounds m h63 h1).2
    refine ⟨parityCount m, packResponse (responseOf (.length (totalLength m))), hle, hleast, hn.trans_lt (by decide), ?_,
      unpackResponse_packResponse _, rspZero_packResponse _⟩
    rw [exec_eq_answered, resultOf, totalLengthResult_ok ⟨h1, h63⟩, replyOf]
  · have hword : packResponse (replyOf (totalLengthResult 0)) = 0x4000000000000000 := by decide
    rw [exec_eq_answered, resultOf, hword]
  · have hword : packResponse (replyOf (totalLengthResult 8)) = 0x0068000000000000 := by decide +kernel
    have hdecode : decodeCommand 0x0400000000000000 = .ok (.totalLength 8) := by decide
    exact (firstResponses_command hdecode { State.reset with config := c, rnd := d }).trans (congrArg ([·]) hword)

end Sys2Proof.Machine
end

section
/-! The family of spec/41: what an XOR over slots counts, what each step of the encoder leaves, the checks that single out the
codewords, and the operation `encode` (R80 to R88). -/

namespace Sys2Proof.Machine

/-! XOR over slots (R8, R83). -/

/-- An XOR over slots is 1 exactly when an odd number of them hold 1. -/
theorem xorOver_eq_decide_odd (s : BitString) (S : List Nat) :
    xorOver s S = decide ((S.filter (readSlot s)).length % 2 = 1) := by
  induction S with
  | nil => rfl
  | cons j S ih =>
    rw [xorOver_cons, ih]
    cases hj : readSlot s j with
    | false => rw [List.filter_cons_of_neg (by simp [hj]), Bool.false_xor]
    | true =>
      rw [List.filter_cons_of_pos hj, List.length_cons, Bool.true_xor, ← decide_not, decide_eq_decide]
      omega

theorem xorOver_perm {S T : List Nat} (h : S.Perm T) (s : BitString) : xorOver s S = xorOver s T := by
  rw [xorOver_eq_decide_odd, xorOver_eq_decide_odd, (h.filter _).length_eq]

/-- One of the slots of an XOR, taken out in front. -/
theorem xorOver_eq_xor_filter_ne {S : List Nat} {j : Nat} (hS : S.Nodup) (hj : j ∈ S) (s : BitString) :
    xorOver s S = (readSlot s j ^^ xorOver s (S.filter (fun k => k != j))) := by
  rw [xorOver_perm (List.perm_cons_erase hj), hS.erase_eq_filter, xorOver_cons]

theorem xorOver_positions_succ (s : BitString) (hi : Nat) :
    xorOver s (positions (hi + 1)) = (xorOver s (positions hi) ^^ readSlot s (hi + 1)) := by
  rw [positions_succ, xorOver_append, xorOver_cons, xorOver_nil, Bool.xor_false]

theorem length_xorBits {a b : BitString} (h : a.length = b.length) : (xorBits a b).length = a.length := by
  simp [xorBits, h]

theorem readSlot_xorBits {a b : BitString} (h : a.length = b.length) (j : Nat) :
    readSlot (xorBits a b) j = (readSlot a j ^^ readSlot b j) := by
  cases j with
  | zero => rfl
  | succ k =>
    by_cases hk : k < b.length <;> simp [readSlot, xorBits, h, hk]

theorem xorOver_xorBits {a b : BitString} (h : a.length = b.length) (S : List Nat) :
    xorOver (xorBits a b) S = (xorOver a S ^^ xorOver b S) := by
  induction S with
  | nil => rfl
  | cons j S ih =>
    rw [xorOver_cons, xorOver_cons, xorOver_cons, ih, readSlot_xorBits h]
    rw [Bool.xor_assoc, Bool.xor_assoc, Bool.xor_left_comm (readSlot b j)]

/-! The check function (R83). -/

theorem two_pow_mem_cover {i hi : Nat} (h : 2 ^ i ≤ hi) : 2 ^ i ∈ cover (2 ^ i) hi :=
  mem_cover_two_pow.mpr ⟨Nat.two_pow_pos i, h, Nat.testBit_two_pow_self⟩

/-- Settles O19: the covered slots that hold 1 are the positions with bit `i` set that hold 1. -/
theorem checkIsTheOddnessOfCoveredOnes : Obligations.CheckIsTheOddnessOfCoveredOnes := by
  refine fun cw i hi => ⟨?_, two_pow_mem_cover⟩
  rw [chk, xorOver_eq_decide_odd, cover, List.filter_filter]
  simp only [covers_two_pow, Bool.and_comm, positions]

/-- The positions `2^i` covers up to `hi`, without `2^i` itself. -/
def coverOthers (i hi : Nat) : List Nat := (cover (2 ^ i) hi).filter (fun j => j != 2 ^ i)

/-- R84: slot `2^i` is one of those its check runs over. -/
theorem chk_eq_xor_coverOthers {i hi : Nat} (h : 2 ^ i ≤ hi) (cw : BitString) :
    chk cw (2 ^ i) hi = (readSlot cw (2 ^ i) ^^ xorOver cw (coverOthers i hi)) :=
  xorOver_eq_xor_filter_ne (cover_nodup _ _) (two_pow_mem_cover h) cw

/-- No power of two is among the other positions that `2^i` covers (R71). -/
theorem isPowerOfTwo_eq_false_of_mem_coverOthers {i hi j : Nat} (h : j ∈ coverOthers i hi) : isPowerOfTwo j = false := by
  obtain ⟨hcover, hne⟩ := List.mem_filter.mp h
  refine Bool.eq_false_iff.mpr fun hj => ?_
  obtain ⟨k, rfl⟩ := (isPowerOfTwo_iff j).mp hj
  have hik : i ≠ k := by
    rintro rfl
    simp at hne
  exact two_pow_not_mem_cover hik hcover

/-- Apart from `2^i` itself, `2^i` covers data positions only. -/
theorem mem_dataPositions_of_mem_coverOthers {i n j : Nat} (h : j ∈ coverOthers i (n - 1)) : j ∈ dataPositions n :=
  mem_dataPositions.mpr ⟨(mem_cover.mp (List.mem_filter.mp h).1).1, isPowerOfTwo_eq_false_of_mem_coverOthers h⟩

/-! Data placement (R82). -/

/-- A walk that meets as many data positions as there are data bits leaves the data bits there, in order. -/
theorem map_readSlot_placeData {js : List Nat} {data cw : BitString} (hnodup : js.Nodup)
    (hrange : ∀ j ∈ js, 1 ≤ j ∧ j ≤ cw.length) (hlen : (js.filter (fun j => !isPowerOfTwo j)).length = data.length) :
    (js.filter (fun j => !isPowerOfTwo j)).map (readSlot (placeData js data cw)) = data := by
  induction js generalizing data cw with
  | nil => exact (List.length_eq_zero_iff.mp hlen.symm).symm
  | cons j js ih =>
    obtain ⟨hj, hnodup⟩ := List.nodup_cons.mp hnodup
    obtain ⟨hjrange, hrange⟩ := List.forall_mem_cons.mp hrange
    cases hp : isPowerOfTwo j with
    | true =>
      rw [List.filter_cons_of_neg (by simp [hp])] at hlen ⊢
      rw [placeData, if_pos hp]
      exact ih hnodup hrange hlen
    | false =>
      rw [List.filter_cons_of_pos (by simp [hp])] at hlen ⊢
      rw [placeData, if_neg (by simp [hp])]
      cases data with
      | nil => simp at hlen
      | cons b data =>
        rw [List.map_cons, readSlot_placeData_of_skipped (.inr hj), readSlot_writeSlot_self hjrange]
        exact congrArg (b :: ·) (ih hnodup (by simpa using hrange) (by simpa using hlen))

/-- Slot `dpos(k)` of a string holds the `k`-th of its data bits (R70, R75). -/
theorem readSlot_of_dpos {m k j : Nat} {cw d : BitString} (hd : (dataPositions (totalLength m)).map (readSlot cw) = d)
    (hj : dpos m k = some j) : readSlot cw j = readSlot d k := by
  cases k with
  | zero => cases hj
  | succ k =>
    rw [dpos] at hj
    subst hd
    simp [readSlot, hj]

theorem mem_dataPositions_of_dpos {m k j : Nat} (hj : dpos m k = some j) : j ∈ dataPositions (totalLength m) := by
  cases k with
  | zero => cases hj
  | succ k => exact List.mem_of_getElem? hj

theorem dpos_bounds {m k j : Nat} (hm : 1 ≤ m) (hj : dpos m k = some j) : 1 ≤ k ∧ k ≤ m := by
  cases k with
  | zero => cases hj
  | succ k =>
    obtain ⟨hk, -⟩ := List.getElem?_eq_some_iff.mp hj
    rw [length_dataPositions hm] at hk
    exact ⟨Nat.le_add_left 1 k, hk⟩

/-! The parity stores, in any order (R84). -/

theorem readSlot_foldl_storeParity_ne {n j : Nat} {L : List Nat} (h : ∀ i ∈ L, j ≠ 2 ^ i) (cw : BitString) :
    readSlot (L.foldl (storeParity n) cw) j = readSlot cw j := by
  induction L generalizing cw with
  | nil => rfl
  | cons i L ih =>
    obtain ⟨hi, hL⟩ := List.forall_mem_cons.mp h
    rw [List.foldl_cons, ih hL, readSlot_storeParity_ne hi]

/-- Each store stores the check of the slots as they were before all stores: the others are not among those it covers. -/
theorem readSlot_foldl_storeParity {n i : Nat} {L : List Nat} {cw : BitString} (hL : L.Nodup) (hi : i ∈ L)
    (hlen : 2 ^ i ≤ cw.length) : readSlot (L.foldl (storeParity n) cw) (2 ^ i) = chk cw (2 ^ i) (n - 1) := by
  induction L generalizing cw with
  | nil => cases hi
  | cons k L ih =>
    obtain ⟨hk, hL⟩ := List.nodup_cons.mp hL
    rw [List.foldl_cons]
    rcases List.mem_cons.mp hi with rfl | hi
    · have hne : ∀ k ∈ L, 2 ^ i ≠ 2 ^ k := fun k hkL he => hk (Nat.pow_right_injective le_rfl he ▸ hkL)
      rw [readSlot_foldl_storeParity_ne hne]
      exact readSlot_writeSlot_self ⟨Nat.two_pow_pos i, hlen⟩ _
    · have hne : i ≠ k := fun he => hk (he ▸ hi)
      rw [ih hL hi (by rwa [length_storeParity])]
      exact xorOver_writeSlot_of_not_mem (two_pow_not_mem_cover hne) _

theorem length_foldl_storeParity (n : Nat) (L : List Nat) (cw : BitString) :
    (L.foldl (storeParity n) cw).length = cw.length := by
  induction L generalizing cw with
  | nil => rfl
  | cons i L ih => rw [List.foldl_cons, ih, length_storeParity]

/-- The order of the parity stores does not matter: each slot is left as it was, or holds its check of the slots before. -/
theorem foldl_storeParity_eq_of_perm {n r : Nat} {L : List Nat} {cw : BitString} (hL : L.Perm (List.range r))
    (hlen : ∀ i < r, 2 ^ i ≤ cw.length) : L.foldl (storeParity n) cw = storeParities r n cw := by
  have hmem {i : Nat} : i ∈ L ↔ i < r := hL.mem_iff.trans List.mem_range
  have hnodup : L.Nodup := hL.nodup_iff.mpr List.nodup_range
  refine bitString_ext (by simp [length_foldl_storeParity]) fun j _ _ => ?_
  rw [storeParities]
  by_cases hj : ∃ i < r, j = 2 ^ i
  · obtain ⟨i, hi, rfl⟩ := hj
    rw [readSlot_foldl_storeParity hnodup (hmem.mpr hi) (hlen i hi),
      readSlot_foldl_storeParity List.nodup_range (List.mem_range.mpr hi) (hlen i hi)]
  · have hne {i : Nat} (hi : i < r) : j ≠ 2 ^ i := fun he => hj ⟨i, hi, he⟩
    rw [readSlot_foldl_storeParity_ne fun i hi => hne (hmem.mp hi),
      readSlot_foldl_storeParity_ne fun i hi => hne (List.mem_range.mp hi)]

/-! What each step of `encode` leaves (R81 to R85). -/

/-- The slots after steps 1 and 2 of `encode` (R81, R82). -/
def dataPlaced (m : Nat) (d : BitString) : BitString :=
  placeData (positions (totalLength m - 1)) d (allocate (totalLength m))

/-- The slots after step 3 of `encode` (R84). -/
def paritiesStored (m : Nat) (d : BitString) : BitString :=
  storeParities (parityCount m) (totalLength m) (dataPlaced m d)

theorem encodeBits_eq_storeOverall (m : Nat) (d : BitString) :
    encodeBits m d = storeOverall (totalLength m) (paritiesStored m d) := rfl

@[simp] theorem length_dataPlaced (m : Nat) (d : BitString) : (dataPlaced m d).length = totalLength m := by
  simp [dataPlaced]

@[simp] theorem length_paritiesStored (m : Nat) (d : BitString) : (paritiesStored m d).length = totalLength m := by
  simp [paritiesStored]

/-- The slots that get no data bit still hold the 0 of the allocation. -/
theorem readSlot_dataPlaced_of_not_mem {m j : Nat} (h : j ∉ dataPositions (totalLength m)) (d : BitString) :
    readSlot (dataPlaced m d) j = false := by
  rw [mem_dataPositions, ← mem_positions, not_and_or, Bool.not_eq_false] at h
  rw [dataPlaced, readSlot_placeData_of_skipped h.symm, readSlot_allocate]

theorem readSlot_paritiesStored_ne {m j : Nat} (h : ∀ i < parityCount m, j ≠ 2 ^ i) (d : BitString) :
    readSlot (paritiesStored m d) j = readSlot (dataPlaced m d) j :=
  readSlot_foldl_storeParity_ne (fun i hi => h i (List.mem_range.mp hi)) _

theorem two_pow_not_mem_dataPositions (i n : Nat) : 2 ^ i ∉ dataPositions n := fun h =>
  Bool.eq_false_iff.mp (mem_dataPositions.mp h).2 ((isPowerOfTwo_iff _).mpr ⟨i, rfl⟩)

theorem totalLength_not_mem_dataPositions (m : Nat) : totalLength m ∉ dataPositions (totalLength m) := fun h => by
  obtain ⟨⟨h1, hle⟩, -⟩ := mem_dataPositions.mp h
  omega

/-- Data positions keep their bit through the parity stores. -/
theorem readSlot_paritiesStored_of_mem {m j : Nat} (h : j ∈ dataPositions (totalLength m)) (d : BitString) :
    readSlot (paritiesStored m d) j = readSlot (dataPlaced m d) j :=
  readSlot_paritiesStored_ne (fun i _ he => two_pow_not_mem_dataPositions i _ (he ▸ h)) d

/-- The overall store leaves the XOR of the slots before it (R85). -/
theorem readSlot_storeOverall_self {n : Nat} {cw : BitString} (h : 1 ≤ n ∧ n ≤ cw.length) :
    readSlot (storeOverall n cw) n = xorOver cw (positions (n - 1)) := readSlot_writeSlot_self h _

/-- An XOR over the slots before `n` is not changed by the overall store. -/
theorem xorOver_storeOverall {n : Nat} {S : List Nat} (h : ∀ j ∈ S, j ∈ positions (n - 1)) (cw : BitString) :
    xorOver (storeOverall n cw) S = xorOver cw S := by
  refine xorOver_writeSlot_of_not_mem (fun hn => ?_) _
  obtain ⟨h1, hle⟩ := mem_positions.mp (h n hn)
  omega

/-- The XOR of all slots, with the last one apart. -/
theorem xorOver_positions_eq {n : Nat} (h : 1 ≤ n) (cw : BitString) :
    xorOver cw (positions n) = (xorOver cw (positions (n - 1)) ^^ readSlot cw n) := by
  obtain ⟨k, rfl⟩ := Nat.exists_eq_add_of_le' h
  exact xorOver_positions_succ cw k

/-- What R87 asks of a codeword for data length `m`: every check over `1..n-1` and the XOR of all bits are 0. -/
def PassesChecks (m : Nat) (c : BitString) : Prop :=
  (∀ i, i < parityCount m → chk c (2 ^ i) (totalLength m - 1) = false) ∧ xorOver c (positions (totalLength m)) = false

section
variable {m : Nat} (hm : 1 ≤ m)
include hm

theorem one_le_totalLength : 1 ≤ totalLength m := (four_le_totalLength hm).trans' (by decide)

theorem two_pow_le_totalLength_pred {i : Nat} (hi : i < parityCount m) : 2 ^ i ≤ totalLength m - 1 :=
  (parityPosition_le hm (mem_parityPositions.mpr ⟨i, hi, rfl⟩)).trans (by omega)

theorem two_pow_le_totalLength {i : Nat} (hi : i < parityCount m) : 2 ^ i ≤ totalLength m :=
  (two_pow_le_totalLength_pred hm hi).trans (Nat.sub_le _ _)

/-- Step 2 puts data bit `k` at the `k`-th data position (R82). -/
theorem map_readSlot_dataPlaced {d : BitString} (hd : d.length = m) :
    (dataPositions (totalLength m)).map (readSlot (dataPlaced m d)) = d := by
  refine map_readSlot_placeData (positions_nodup _) (fun j hj => ?_) ((length_dataPositions hm).trans hd.symm)
  obtain ⟨h1, hle⟩ := mem_positions.mp hj
  rw [length_allocate]
  exact ⟨h1, hle.trans (Nat.sub_le _ _)⟩

/-- Step 3 stores at `2^i` the XOR of the data bits it covers: slot `2^i` itself was 0 (R84). -/
theorem readSlot_paritiesStored {i : Nat} (hi : i < parityCount m) (d : BitString) :
    readSlot (paritiesStored m d) (2 ^ i) = xorOver (dataPlaced m d) (coverOthers i (totalLength m - 1)) := by
  rw [paritiesStored, storeParities, readSlot_foldl_storeParity List.nodup_range (List.mem_range.mpr hi)
    (by rw [length_dataPlaced]; exact two_pow_le_totalLength hm hi), chk_eq_xor_coverOthers (two_pow_le_totalLength_pred hm hi),
    readSlot_dataPlaced_of_not_mem (two_pow_not_mem_dataPositions i _), Bool.false_xor]

/-- After step 3 every check is 0 (R84). -/
theorem chk_paritiesStored {i : Nat} (hi : i < parityCount m) (d : BitString) :
    chk (paritiesStored m d) (2 ^ i) (totalLength m - 1) = false := by
  have hothers : xorOver (paritiesStored m d) (coverOthers i (totalLength m - 1)) =
      xorOver (dataPlaced m d) (coverOthers i (totalLength m - 1)) :=
    xorOver_congr fun j hj => readSlot_paritiesStored_of_mem (mem_dataPositions_of_mem_coverOthers hj) d
  rw [chk_eq_xor_coverOthers (two_pow_le_totalLength_pred hm hi), readSlot_paritiesStored hm hi, hothers, Bool.xor_self]

/-- Step 4 stores the XOR of the slots before `n` (R85). -/
theorem readSlot_encodeBits_totalLength (d : BitString) :
    readSlot (encodeBits m d) (totalLength m) = xorOver (paritiesStored m d) (positions (totalLength m - 1)) := by
  rw [encodeBits_eq_storeOverall, readSlot_storeOverall_self ⟨one_le_totalLength hm, (length_paritiesStored m d).ge⟩]

/-- After step 4 the XOR of all bits is 0 (R85). -/
theorem xorOver_encodeBits (d : BitString) : xorOver (encodeBits m d) (positions (totalLength m)) = false := by
  rw [xorOver_positions_eq (one_le_totalLength hm), readSlot_encodeBits_totalLength hm, encodeBits_eq_storeOverall,
    xorOver_storeOverall fun _ h => h, Bool.xor_self]

/-- R87, from left to right: what `encode` produces passes the checks. -/
theorem passesChecks_encodeBits (d : BitString) : PassesChecks m (encodeBits m d) := by
  refine ⟨fun i hi => ?_, xorOver_encodeBits hm d⟩
  rw [← chk_paritiesStored hm hi d]
  exact xorOver_storeOverall (fun _ h => (List.mem_filter.mp h).1) _

/-- R75: the data positions of the codeword hold the data word. -/
theorem map_readSlot_encodeBits {d : BitString} (hd : d.length = m) :
    (dataPositions (totalLength m)).map (readSlot (encodeBits m d)) = d := by
  refine (List.map_congr_left fun j hj => ?_).trans (map_readSlot_dataPlaced hm hd)
  have hne : j ≠ totalLength m := fun he => totalLength_not_mem_dataPositions m (he ▸ hj)
  rw [encodeBits_eq_storeOverall, readSlot_storeOverall_ne hne, readSlot_paritiesStored_of_mem hj]

theorem extractData_encodeBits {d : BitString} (hd : d.length = m) : extractData (encodeBits m d) = d := by
  rw [extractData, length_encodeBits, map_readSlot_encodeBits hm hd]

/-! A string that passes the checks is determined by its data bits (R86, R87). -/

/-- A parity bit is the XOR of the other positions it covers. -/
theorem PassesChecks.readSlot_two_pow {c : BitString} (h : PassesChecks m c) {i : Nat} (hi : i < parityCount m) :
    readSlot c (2 ^ i) = xorOver c (coverOthers i (totalLength m - 1)) := by
  obtain ⟨hchk, -⟩ := h
  have hi0 := hchk i hi
  rw [chk_eq_xor_coverOthers (two_pow_le_totalLength_pred hm hi)] at hi0
  exact bne_eq_false_iff_eq.mp hi0

/-- The last bit is the XOR of all others. -/
theorem PassesChecks.readSlot_totalLength {c : BitString} (h : PassesChecks m c) :
    readSlot c (totalLength m) = xorOver c (positions (totalLength m - 1)) := by
  obtain ⟨-, hall⟩ := h
  rw [xorOver_positions_eq (one_le_totalLength hm)] at hall
  exact (bne_eq_false_iff_eq.mp hall).symm

/-- Every position before `n` is a parity position or a data position (R68, R74). -/
theorem parity_or_data_of_mem_positions {j : Nat} (hj : j ∈ positions (totalLength m - 1)) :
    (∃ i < parityCount m, 2 ^ i = j) ∨ j ∈ dataPositions (totalLength m) := by
  cases hp : isPowerOfTwo j with
  | true =>
    have hparity : j ∈ parityPositions (parityCount m) := by
      rw [← filter_isPowerOfTwo_positions hm]
      exact List.mem_filter.mpr ⟨hj, hp⟩
    exact .inl (mem_parityPositions.mp hparity)
  | false => exact .inr (mem_dataPositions.mpr ⟨mem_positions.mp hj, hp⟩)

/-- Equal data bits give equal parity bits, and these an equal last bit. -/
theorem PassesChecks.eq_of_extractData_eq {a b : BitString} (ha : PassesChecks m a) (hb : PassesChecks m b)
    (hla : a.length = totalLength m) (hlb : b.length = totalLength m) (h : extractData a = extractData b) : a = b := by
  have hdata : ∀ j ∈ dataPositions (totalLength m), readSlot a j = readSlot b j := by
    rw [extractData, extractData, hla, hlb] at h
    exact List.map_inj_left.mp h
  have hbefore : ∀ j ∈ positions (totalLength m - 1), readSlot a j = readSlot b j := fun j hj => by
    rcases parity_or_data_of_mem_positions hm hj with ⟨i, hi, rfl⟩ | hj
    · rw [ha.readSlot_two_pow hm hi, hb.readSlot_two_pow hm hi]
      exact xorOver_congr fun k hk => hdata k (mem_dataPositions_of_mem_coverOthers hk)
    · exact hdata j hj
  refine bitString_ext (hla.trans hlb.symm) fun j h1 hj => ?_
  by_cases hn : j = totalLength m
  · rw [hn, ha.readSlot_totalLength hm, hb.readSlot_totalLength hm, xorOver_congr hbefore]
  · exact hbefore j (mem_positions.mpr ⟨h1, by omega⟩)

theorem length_extractData {c : BitString} (hc : c.length = totalLength m) : (extractData c).length = m := by
  rw [extractData, List.length_map, hc, length_dataPositions hm]

/-- R87, from right to left: a string that passes the checks is the codeword of its own data bits. -/
theorem PassesChecks.eq_encodeBits {c : BitString} (h : PassesChecks m c) (hc : c.length = totalLength m) :
    c = encodeBits m (extractData c) :=
  h.eq_of_extractData_eq hm (passesChecks_encodeBits hm _) hc (length_encodeBits m _)
    (extractData_encodeBits hm (length_extractData hm hc)).symm

theorem passesChecks_of_validCodeword {c : BitString} (h : ValidCodeword m c) : PassesChecks m c := by
  obtain ⟨d, -, rfl⟩ := h
  exact passesChecks_encodeBits hm d

end

/-- Settles O17: the codeword passes the checks, and each bit that a check covers is the XOR of the others. -/
theorem freshCodewordInvariants : Obligations.FreshCodewordInvariants := by
  intro m d hm hd
  have hpass := passesChecks_encodeBits hm d
  exact ⟨length_encodeBits m d, fun i hi => hpass.readSlot_two_pow hm hi, hpass.readSlot_totalLength hm,
    extractData_encodeBits hm hd⟩

/-- Settles O18, from the lemmas about each step. -/
theorem encoderSteps : Obligations.EncoderSteps := by
  intro m d hm hd r n a b c e
  refine ⟨⟨length_allocate n, fun j _ _ => readSlot_allocate n j⟩, ⟨fun k h1 hk => ?_, fun k j hj => ?_, ?_⟩,
    ⟨fun i hi => ⟨readSlot_paritiesStored hm hi d, chk_paritiesStored hm hi d⟩,
      fun j hj => readSlot_paritiesStored_ne hj d, fun L hL => foldl_storeParity_eq_of_perm hL fun i hi => ?_⟩,
    ⟨readSlot_encodeBits_totalLength hm d, fun j hj => readSlot_storeOverall_ne hj c, xorOver_encodeBits hm d⟩, rfl⟩
  · rw [dpos_eq_getElem ⟨h1, by rwa [length_dataPositions hm]⟩, Option.isSome_some]
  · obtain ⟨h1, hk⟩ := dpos_bounds hm hj
    exact ⟨h1, hk, readSlot_of_dpos (map_readSlot_dataPlaced hm hd) hj⟩
  · rintro j (⟨i, rfl⟩ | rfl)
    · exact readSlot_dataPlaced_of_not_mem (two_pow_not_mem_dataPositions i n) d
    · exact readSlot_dataPlaced_of_not_mem (totalLength_not_mem_dataPositions m) d
  · exact (two_pow_le_totalLength hm hi).trans (length_dataPlaced m d).ge

/-- Settles O20: passing the checks determines a string by its data bits. -/
theorem validCodewordsAreThoseThatPassTheChecks : Obligations.ValidCodewordsAreThoseThatPassTheChecks := by
  intro m c hm hc
  have hself (h : PassesChecks m c) : c = encodeBits m (extractData c) := h.eq_encodeBits hm hc
  exact ⟨⟨passesChecks_of_validCodeword hm, fun h => ⟨extractData c, length_extractData hm hc, hself h⟩⟩,
    fun h => hself (passesChecks_of_validCodeword hm h)⟩

/-! Linearity (R87). -/

theorem chk_xorBits {a b : BitString} (h : a.length = b.length) (p hi : Nat) :
    chk (xorBits a b) p hi = (chk a p hi ^^ chk b p hi) := xorOver_xorBits h _

theorem PassesChecks.xor {m : Nat} {a b : BitString} (ha : PassesChecks m a) (hb : PassesChecks m b)
    (h : a.length = b.length) : PassesChecks m (xorBits a b) := by
  obtain ⟨hchka, halla⟩ := ha
  obtain ⟨hchkb, hallb⟩ := hb
  refine ⟨fun i hi => ?_, ?_⟩
  · rw [chk_xorBits h, hchka i hi, hchkb i hi, Bool.xor_self]
  · rw [xorOver_xorBits h, halla, hallb, Bool.xor_self]

theorem extractData_xorBits {a b : BitString} (h : a.length = b.length) :
    extractData (xorBits a b) = xorBits (extractData a) (extractData b) := by
  rw [extractData, extractData, extractData, length_xorBits h, h]
  refine (List.map_congr_left fun j _ => readSlot_xorBits h j).trans ?_
  rw [xorBits, List.zipWith_map, List.zipWith_self]

/-- Settles O21: the XOR of two codewords passes the checks, and its data bits are the XOR of theirs. -/
theorem encodeIsLinear : Obligations.EncodeIsLinear := by
  refine ⟨fun m a b hm ha hb => ?_, fun a b p hi h => chk_xorBits h p hi⟩
  have hlen : (encodeBits m a).length = (encodeBits m b).length := by rw [length_encodeBits, length_encodeBits]
  refine (passesChecks_encodeBits hm _).eq_of_extractData_eq hm
    ((passesChecks_encodeBits hm a).xor (passesChecks_encodeBits hm b) hlen) (length_encodeBits m _)
    ((length_xorBits hlen).trans (length_encodeBits m a)) ?_
  rw [extractData_encodeBits hm ((length_xorBits (ha.trans hb.symm)).trans ha), extractData_xorBits hlen,
    extractData_encodeBits hm ha, extractData_encodeBits hm hb]

/-! The operation `encode` (R80): its response read by position. -/

theorem positionBit_payloadOfBits {cw : BitString} (h : cw.length ≤ 39) {j : Nat} (hj : 1 ≤ j) :
    positionBit (payloadOfBits cw) j = readSlot cw j := by
  rw [positionBit, getLsbD_payloadOfBits, Nat.sub_add_cancel hj]
  by_cases hlt : j - 1 < 39
  · rw [decide_eq_true hlt, Bool.true_and]
  · rw [readSlot_of_length_lt (by omega), Bool.and_false]

/-- An XOR over selected positions is the parity of the count of 1s there. -/
theorem xorOver_filter_positions {cw : BitString} (h : cw.length ≤ 39) (hi : Nat) (sel : Nat → Bool) :
    xorOver cw ((positions hi).filter sel) = decide (countOnes (payloadOfBits cw) hi sel % 2 = 1) := by
  have hcount : (positions hi).filter (fun j => readSlot cw j && sel j) =
      (List.range' 1 hi).filter (fun j => sel j && positionBit (payloadOfBits cw) j) :=
    List.filter_congr fun j hj => by
      rw [positionBit_payloadOfBits h (mem_positions.mp hj).1, Bool.and_comm]
  rw [xorOver_eq_decide_odd, List.filter_filter, hcount, countOnes]

theorem coverOthers_eq_filter (i hi : Nat) :
    coverOthers i hi = (positions hi).filter (fun j => j.testBit i && j != 2 ^ i) := by
  simp only [coverOthers, cover, List.filter_filter, covers_two_pow, Bool.and_comm]

theorem encodeResult_ok {m : Nat} (h : m = 8 ∨ m = 16 ∨ m = 32) (p : Payload) :
    encodeResult m p = .ok (.codeword (totalLength m) (encodeBits m (dataOperand m p))) :=
  if_pos (supported_iff.mpr h)

/-- Settles O16: the response carries the codeword, whose bits are those of a string that passes the checks. -/
theorem encodeCompletes : Obligations.EncodeCompletes := by
  intro s m p h
  have hm : 1 ≤ m := by omega
  have hlen : (encodeBits m (dataOperand m p)).length ≤ 39 :=
    (length_encodeBits m _).trans_le (totalLength_le_of_supported h)
  have hpass := passesChecks_encodeBits hm (dataOperand m p)
  refine ⟨packResponse (responseOf (.codeword (totalLength m) (encodeBits m (dataOperand m p)))), _, ?_,
    ⟨unpackResponse_packResponse _, rspZero_packResponse _⟩, fun k j hj => ?_, fun i hi => ?_, ?_, fun j hj => ?_⟩
  · rw [exec_eq_answered, resultOf, encodeResult_ok h, replyOf]
  · have hk := dpos_bounds hm hj
    have hj1 : 1 ≤ j := (mem_dataPositions.mp (mem_dataPositions_of_dpos hj)).1.1
    rw [positionBit_payloadOfBits hlen hj1, readSlot_of_dpos (map_readSlot_encodeBits hm (length_dataOperand m p)) hj]
    exact readSlot_bitsOfPayload p hk
  · rw [positionBit_payloadOfBits hlen (Nat.two_pow_pos i), hpass.readSlot_two_pow hm hi, coverOthers_eq_filter,
      xorOver_filter_positions hlen]
  · rw [positionBit_payloadOfBits hlen (one_le_totalLength hm), hpass.readSlot_totalLength hm,
      ← xorOver_filter_positions hlen, List.filter_true]
  · rw [positionBit_payloadOfBits hlen (by omega)]
    exact readSlot_of_length_lt (by rwa [length_encodeBits])

/-- Settles O22, by evaluating the rows of R88's table. -/
theorem workedEncoding : Obligations.WorkedEncoding := by
  unfold Obligations.WorkedEncoding; decide +kernel

end Sys2Proof.Machine
end

section
/-! The family of spec/42: the flip as an XOR on the packed field, and the operations `inject_at` and `inject_random`
(R90 to R95). -/

namespace Sys2Proof.Machine

/-! The flip (R90). -/

theorem flipBit_flipBit {c : BitString} {q : Nat} (h : 1 ≤ q ∧ q ≤ c.length) : flipBit (flipBit c q) q = c := by
  have hflip : 1 ≤ q ∧ q ≤ (flipBit c q).length := by rwa [length_flipBit]
  refine bitString_ext (by simp) fun j _ _ => ?_
  rw [readSlot_flipBit hflip, readSlot_flipBit h, Bool.xor_assoc, Bool.xor_self, Bool.xor_false]

theorem payloadOfBits_flipBit {c : BitString} {q : Nat} (h : 1 ≤ q ∧ q ≤ c.length) :
    payloadOfBits (flipBit c q) = payloadOfBits c ^^^ BitVec.ofNat 39 (2 ^ (q - 1)) := by
  refine BitVec.eq_of_getLsbD_eq fun i hi => ?_
  have hindex : i + 1 = q ↔ q - 1 = i := by omega
  simp only [getLsbD_payloadOfBits, readSlot_flipBit h, BitVec.getLsbD_xor, BitVec.getLsbD_ofNat, Nat.testBit_two_pow,
    hi, hindex, decide_true, Bool.true_and]

/-- Settles O23: each clause is one law of the flip. -/
theorem flipInvertsOneBit : Obligations.FlipInvertsOneBit := by
  intro c q h1 hq
  exact ⟨length_flipBit c q, readSlot_writeSlot_self ⟨h1, hq⟩ _, fun j hj => readSlot_writeSlot_ne hj _,
    flipBit_flipBit ⟨h1, hq⟩, fun _ => payloadOfBits_flipBit ⟨h1, hq⟩⟩

/-! The codeword operand as a payload (R52). -/

theorem payloadOfBits_bitsOfPayload (len : Nat) (p : Payload) : payloadOfBits (bitsOfPayload len p) = cutPayload p len := by
  refine BitVec.eq_of_getLsbD_eq fun i hi => ?_
  rw [getLsbD_payloadOfBits, getLsbD_cutPayload, decide_eq_true hi, Bool.true_and]
  by_cases hlen : i < len
  · rw [readSlot_bitsOfPayload p ⟨Nat.le_add_left 1 i, hlen⟩, decide_eq_true hlen, Bool.and_true, Nat.add_sub_cancel]
  · rw [readSlot_of_length_lt (by rw [length_bitsOfPayload]; omega), decide_eq_false hlen, Bool.and_false]

/-! What is read back from a response word (R47, R54). -/

theorem carries_packResponse (r : Response) : Carries (packResponse r) r :=
  ⟨unpackResponse_packResponse r, rspZero_packResponse r⟩

@[simp] theorem isFaultWord_packResponse (r : Response) : isFaultWord (packResponse r) = (r.fault != 0) := by
  rw [isFaultWord, unpackResponse_packResponse]

theorem isFaultWord_faultResponse (f : Fault) : isFaultWord (packResponse (faultResponse f)) = true := by
  cases f <;> decide

/-! What an injection can do (R91, R92). -/

/-- Given the draw, the two operations are one function of the position (R92, R94). -/
theorem injectRandomResult_eq_injectAtResult (m draw : Nat) (p : Payload) :
    injectRandomResult m draw p = injectAtResult m draw p := rfl

/-- Settles O26: the draw is the position. -/
theorem injectRandomIsInjectAtGivenTheDraw : Obligations.InjectRandomIsInjectAtGivenTheDraw := by
  intro s m p
  rw [exec_eq_answered, exec_eq_answered, resultOf, resultOf, injectRandomResult_eq_injectAtResult]

/-- An injection completes with the operand flipped at a position of `1..n`, or faults. -/
theorem injectAtResult_cases (m pos : Nat) (p : Payload) :
    ((m = 8 ∨ m = 16 ∨ m = 32) ∧ (1 ≤ pos ∧ pos ≤ totalLength m) ∧
      injectAtResult m pos p = .ok (.injected (totalLength m) pos (flipBit (codeOperand m p) pos))) ∨
    ∃ f, injectAtResult m pos p = .error f := by
  unfold injectAtResult
  split
  next hm =>
    split
    next hpos => exact .inl ⟨supported_iff.mp hm, inRange_iff.mp hpos, rfl⟩
    next => exact .inr ⟨_, rfl⟩
  next => exact .inr ⟨_, rfl⟩

section
variable {m pos : Nat} (hm : m = 8 ∨ m = 16 ∨ m = 32) (hpos : 1 ≤ pos ∧ pos ≤ totalLength m)

include hpos

theorem pos_mem_codeOperand (p : Payload) : 1 ≤ pos ∧ pos ≤ (codeOperand m p).length := by
  rwa [length_codeOperand]

include hm

theorem injectAtResult_ok (p : Payload) :
    injectAtResult m pos p = .ok (.injected (totalLength m) pos (flipBit (codeOperand m p) pos)) := by
  rw [injectAtResult, if_pos (supported_iff.mpr hm), if_pos (inRange_iff.mpr hpos)]

theorem replyOf_injectAtResult (p : Payload) :
    replyOf (injectAtResult m pos p) =
      { fault := 0, status := 0, ovp := 0, n := BitVec.ofNat 7 (totalLength m), pos := BitVec.ofNat 6 pos,
        payload := cutPayload p (totalLength m) ^^^ BitVec.ofNat 39 (2 ^ (pos - 1)) } := by
  rw [injectAtResult_ok hm hpos, replyOf, responseOf, payloadOfBits_flipBit (pos_mem_codeOperand hpos p), codeOperand,
    payloadOfBits_bitsOfPayload]

/-- Injecting into the codeword an injection at the same position gave (R95). -/
theorem injectAtResult_payloadOfBits_flipBit (p : Payload) :
    injectAtResult m pos (payloadOfBits (flipBit (codeOperand m p) pos)) =
      .ok (.injected (totalLength m) pos (codeOperand m p)) := by
  have hlen : (flipBit (codeOperand m p) pos).length = totalLength m := by simp
  have hoperand : codeOperand m (payloadOfBits (flipBit (codeOperand m p) pos)) = flipBit (codeOperand m p) pos := by
    rw [codeOperand, ← hlen]
    exact bitsOfPayload_payloadOfBits (hlen.trans_le (totalLength_le_of_supported hm))
  rw [injectAtResult_ok hm hpos, hoperand, flipBit_flipBit (pos_mem_codeOperand hpos p)]

theorem positionBit_payloadOfBits_flipBit (p : Payload) {j : Nat} (hj : 1 ≤ j ∧ j ≤ totalLength m) :
    positionBit (payloadOfBits (flipBit (codeOperand m p) pos)) j = (positionBit p j ^^ decide (j = pos)) := by
  have hlen : (flipBit (codeOperand m p) pos).length ≤ 39 := by
    rw [length_flipBit, length_codeOperand]
    exact totalLength_le_of_supported hm
  rw [positionBit_payloadOfBits hlen hj.1, readSlot_flipBit (pos_mem_codeOperand hpos p), codeOperand,
    readSlot_bitsOfPayload p hj, positionBit]

end

/-! The two operations (R91 to R93, R95). -/

/-- Settles O24: the response carries the fields of the flipped operand. -/
theorem injectAtCompletes : Obligations.InjectAtCompletes := by
  intro s m pos p hm h1 hn
  exact ⟨_, exec_eq_answered _ s, replyOf_injectAtResult hm ⟨h1, hn⟩ p ▸ carries_packResponse _⟩

/-- Settles O25: the draw takes the place of the position, and the 6 bits of a draw hold every position of `1..n`. -/
theorem injectRandomCompletes : Obligations.InjectRandomCompletes := by
  refine fun m p hm => ⟨fun s h1 hn => ?_, fun q _ hq => ⟨BitVec.ofNat 6 q, ?_⟩⟩
  · obtain ⟨w, hexec, hcarries⟩ := injectAtCompletes s m s.rnd.toNat p hm h1 hn
    rw [BitVec.ofNat_toNat, BitVec.setWidth_eq] at hcarries
    exact ⟨w, (injectRandomIsInjectAtGivenTheDraw s m p).trans hexec, hcarries⟩
  · have h39 : totalLength m ≤ 39 := totalLength_le_of_supported hm
    exact toNat_ofNat_of_fitsPos (decide_eq_true (by omega))

/-- Settles O28: the second injection flips the same position of the first one's codeword, which gives the operand back. -/
theorem injectingTwiceRestores : Obligations.InjectingTwiceRestores := by
  intro s t m pos p hm h1 hn
  refine ⟨_, _, exec_eq_answered _ s, exec_eq_answered _ t, ?_⟩
  have hfirst : (replyOf (injectAtResult m pos p)).payload = payloadOfBits (flipBit (codeOperand m p) pos) := by
    rw [injectAtResult_ok hm ⟨h1, hn⟩]; rfl
  rw [unpackResponse_packResponse, unpackResponse_packResponse, resultOf, resultOf, hfirst,
    injectAtResult_payloadOfBits_flipBit hm ⟨h1, hn⟩]
  exact ⟨payloadOfBits_bitsOfPayload (totalLength m) p, rfl⟩

/-- Either injection is `inject_at` at some position. -/
theorem exec_injection_eq_exec_injectAt {m pos : Nat} {p : Payload} {i : Instr}
    (h : i = .injectAt m pos p ∨ i = .injectRandom m p) (s : State) :
    ∃ q, exec i s = exec (.injectAt m q p) s := by
  rcases h with rfl | rfl
  · exact ⟨pos, rfl⟩
  · exact ⟨s.rnd.toNat, injectRandomIsInjectAtGivenTheDraw s m p⟩

/-- Settles O27: where the injection completes, the positions read back differ at the flipped one; where it faults, the response
is the code alone. -/
theorem injectionFlipsExactlyOneBit : Obligations.InjectionFlipsExactlyOneBit := by
  intro s t m pos p i hi hexec
  obtain ⟨q, hq⟩ := exec_injection_eq_exec_injectAt hi s
  rw [hq, exec_eq_answered] at hexec
  cases hexec
  refine ⟨_, rfl, ?_⟩
  rw [unpackResponse_packResponse, resultOf]
  rcases injectAtResult_cases m q p with ⟨hm, hrange, hr⟩ | ⟨f, hr⟩
  · have h39 : totalLength m ≤ 39 := totalLength_le_of_supported hm
    have hN : (BitVec.ofNat 7 (totalLength m)).toNat = totalLength m := Nat.mod_eq_of_lt (by omega)
    have hPos : (BitVec.ofNat 6 q).toNat = q := Nat.mod_eq_of_lt (by omega)
    rw [hr, replyOf, responseOf, isFaultWord_packResponse, hN, hPos]
    refine ⟨fun _ => ⟨rfl, hrange.1, hrange.2, fun j h1 hj => ?_, fun j hj => ?_⟩, nofun⟩
    · rw [positionBit_payloadOfBits_flipBit hm hrange p ⟨h1, hj⟩]
      cases positionBit p j <;> simp
    · have hlen : (flipBit (codeOperand m p) q).length = totalLength m := by simp
      rw [positionBit_payloadOfBits (by omega) (by omega), readSlot_of_length_lt (by omega)]
  · rw [hr, replyOf, isFaultWord_faultResponse]
    exact ⟨nofun, fun _ => ⟨rfl, rfl⟩⟩

end Sys2Proof.Machine
end

section
/-! The family of spec/43, what the decoder computes: the syndrome bit by bit and in closed form, the overall parity, what
flips change in them, and their values for a valid codeword (R102 to R105, R110). -/

namespace Sys2Proof.Machine

/-! The syndrome bit by bit (R102). -/

theorem testBit_syndromeStep (code : BitString) (hi synd k i : Nat) :
    (syndromeStep code hi synd k).testBit i = (synd.testBit i || (decide (k = i) && chk code (2 ^ k) hi)) := by
  cases h : chk code (2 ^ k) hi <;> simp [syndromeStep, h, Nat.testBit_or, Nat.testBit_two_pow]

theorem syndrome_succ (code : BitString) (r hi : Nat) :
    syndrome code (r + 1) hi = syndromeStep code hi (syndrome code r hi) r := by
  rw [syndrome, List.range_succ, List.foldl_append]; rfl

/-- Bit `i` of the syndrome is the check of `2^i`, for the `r` checks that run. -/
theorem testBit_syndrome (code : BitString) (r hi i : Nat) :
    (syndrome code r hi).testBit i = (decide (i < r) && chk code (2 ^ i) hi) := by
  induction r with
  | zero => simp [syndrome]
  | succ r ih =>
    rw [syndrome_succ, testBit_syndromeStep, ih]
    by_cases h : r = i
    · subst h; simp
    · simp [h, show i < r + 1 ↔ i < r by omega]

theorem syndrome_lt_two_pow (code : BitString) (r hi : Nat) : syndrome code r hi < 2 ^ r :=
  Nat.lt_pow_two_of_testBit _ fun i hi => by
    rw [testBit_syndrome, decide_eq_false (Nat.not_lt.mpr hi), Bool.false_and]

/-- Position `hi + 1` enters the checks that cover it. -/
theorem chk_succ (code : BitString) (p hi : Nat) :
    chk code p (hi + 1) = (chk code p hi ^^ (covers p (hi + 1) && readSlot code (hi + 1))) := by
  rw [chk, chk, cover, cover, positions_succ, List.filter_append, xorOver_append]
  cases h : covers p (hi + 1) <;> simp [h]

/-- R103, R110: running the checks over position `n` too adds `n` to the syndrome exactly when that position holds a 1. -/
theorem syndrome_eq_xor_of_pred {n : Nat} (hn : 1 ≤ n) (code : BitString) (r : Nat) :
    syndrome code r n = syndrome code r (n - 1) ^^^ (if readSlot code n then n % 2 ^ r else 0) := by
  obtain ⟨k, rfl⟩ := Nat.exists_eq_add_of_le' hn
  refine Nat.eq_of_testBit_eq fun i => ?_
  rw [Nat.testBit_xor, testBit_syndrome, testBit_syndrome, chk_succ, covers_two_pow, Nat.add_sub_cancel]
  cases readSlot code (k + 1) <;> simp [Nat.testBit_mod_two_pow, Bool.and_xor_distrib_left]

/-- Flipping a position of the span adds its number to the syndrome. -/
theorem syndrome_flipBit {c : BitString} {q : Nat} (hq : 1 ≤ q ∧ q ≤ c.length) (r hi : Nat) :
    syndrome (flipBit c q) r hi = syndrome c r hi ^^^ (if q ≤ hi then q % 2 ^ r else 0) := by
  refine Nat.eq_of_testBit_eq fun i => ?_
  rw [Nat.testBit_xor, testBit_syndrome, testBit_syndrome, chk, xorOver_flipBit hq (cover_nodup _ _), ← chk]
  by_cases hle : q ≤ hi <;>
    simp [mem_cover_two_pow, hq.1, hle, Nat.testBit_mod_two_pow, Bool.and_xor_distrib_left]

/-! The closed form (R110). -/

/-- The XOR of the position numbers among `S` that hold a 1. -/
def onesXor (s : BitString) (S : List Nat) : Nat := (S.filter (readSlot s)).foldr (· ^^^ ·) 0

/-- Bit `i` of the XOR of the 1-positions is the XOR of the slots whose number has bit `i`. -/
theorem testBit_onesXor (s : BitString) (S : List Nat) (i : Nat) :
    (onesXor s S).testBit i = xorOver s (S.filter (·.testBit i)) := by
  induction S with
  | nil => simp [onesXor]
  | cons j S ih =>
    rw [onesXor] at ih ⊢
    cases hj : readSlot s j <;> cases hi : j.testBit i <;> simp [hj, hi, ih, Nat.testBit_xor]

theorem syndrome_eq_onesXor_mod (code : BitString) (r hi : Nat) :
    syndrome code r hi = onesXor code (positions hi) % 2 ^ r := by
  refine Nat.eq_of_testBit_eq fun i => ?_
  rw [testBit_syndrome, Nat.testBit_mod_two_pow, testBit_onesXor, chk, cover, funext (covers_two_pow i)]

/-! The overall parity (R104). -/

theorem overallParity_flipBit {c : BitString} {n q : Nat} (hlen : c.length = n) (hq : 1 ≤ q ∧ q ≤ n) :
    overallParity (flipBit c q) n = !overallParity c n := by
  rw [overallParity, xorOver_flipBit (hlen ▸ hq) (positions_nodup n), decide_eq_true (mem_positions.mpr hq), Bool.xor_true,
    overallParity]

/-! A set of flips (R95, R110). -/

theorem flipAll_cons (c : BitString) (q : Nat) (E : List Nat) : flipAll c (q :: E) = flipAll (flipBit c q) E := rfl

section
variable {c : BitString} {n : Nat} {E : List Nat}

theorem syndrome_flipAll {r : Nat} (hlen : c.length = n) (hE : ∀ j ∈ E, 1 ≤ j ∧ j ≤ n) (hr : n - 1 < 2 ^ r) :
    syndrome (flipAll c E) r (n - 1) =
      syndrome c r (n - 1) ^^^ (E.filter (fun j => decide (j < n))).foldr (· ^^^ ·) 0 := by
  induction E generalizing c with
  | nil => simp [flipAll]
  | cons q E ih =>
    obtain ⟨hq, hE⟩ := List.forall_mem_cons.mp hE
    rw [flipAll_cons, ih ((length_flipBit c q).trans hlen) hE, syndrome_flipBit (hlen ▸ hq)]
    by_cases hlt : q < n
    · rw [if_pos (by omega), Nat.mod_eq_of_lt (by omega), List.filter_cons_of_pos (by simpa using hlt), List.foldr_cons,
        Nat.xor_assoc]
    · rw [if_neg (by omega), Nat.xor_zero, List.filter_cons_of_neg (by simpa using hlt)]

theorem overallParity_flipAll (hlen : c.length = n) (hE : ∀ j ∈ E, 1 ≤ j ∧ j ≤ n) :
    overallParity (flipAll c E) n = (overallParity c n ^^ decide (E.length % 2 = 1)) := by
  induction E generalizing c with
  | nil => simp [flipAll]
  | cons q E ih =>
    obtain ⟨hq, hE⟩ := List.forall_mem_cons.mp hE
    have hodd : decide ((q :: E).length % 2 = 1) = !decide (E.length % 2 = 1) := by
      rw [List.length_cons, ← decide_not, decide_eq_decide]; omega
    rw [flipAll_cons, ih ((length_flipBit c q).trans hlen) hE, overallParity_flipBit hlen hq, hodd, Bool.not_xor,
      Bool.xor_not]

theorem readSlot_flipAll (hlen : c.length = n) (hE : ∀ j ∈ E, 1 ≤ j ∧ j ≤ n) (hnodup : E.Nodup) (j : Nat) :
    readSlot (flipAll c E) j = (readSlot c j ^^ decide (j ∈ E)) := by
  induction E generalizing c with
  | nil => simp [flipAll]
  | cons q E ih =>
    obtain ⟨hq, hE⟩ := List.forall_mem_cons.mp hE
    obtain ⟨hqE, hnodup⟩ := List.nodup_cons.mp hnodup
    rw [flipAll_cons, ih ((length_flipBit c q).trans hlen) hE hnodup, readSlot_flipBit (hlen ▸ hq)]
    by_cases hj : j = q
    · subst hj; simp [hqE]
    · simp [hj]

end

/-! What the decoder computes from a valid codeword (R86, R102, R104). -/

theorem length_of_validCodeword {m : Nat} {c : BitString} (hc : ValidCodeword m c) : c.length = totalLength m := by
  obtain ⟨d, -, rfl⟩ := hc
  exact length_encodeBits m d

section
variable {m : Nat} {c : BitString} (hm : 1 ≤ m) (hc : ValidCodeword m c)
include hm hc

theorem overallParity_of_validCodeword : overallParity c (totalLength m) = false :=
  (passesChecks_of_validCodeword hm hc).2

theorem syndrome_of_validCodeword : syndrome c (parityCount m) (totalLength m - 1) = 0 := by
  refine Nat.eq_of_testBit_eq fun i => ?_
  rw [testBit_syndrome, Nat.zero_testBit]
  by_cases hi : i < parityCount m
  · rw [(passesChecks_of_validCodeword hm hc).1 i hi, Bool.and_false]
  · rw [decide_eq_false hi, Bool.false_and]

end

/-- Settles O34: each line of the table is one branch of the corrector. -/
theorem classificationTable : Obligations.ClassificationTable := by
  refine fun code n synd => ⟨rfl, fun hs hn => ?_, fun hs => ?_, rfl⟩
  · simp [correct, classify, hs, hn]
  · simp [correct, classify, hs]

/-- Settles O33: the count is that of the XOR over all positions; a codeword passes the check of all of them. -/
theorem overallParityIsTheOddnessOfOnes : Obligations.OverallParityIsTheOddnessOfOnes :=
  ⟨fun code n => xorOver_eq_decide_odd code (positions n), fun _ _ hm hc => overallParity_of_validCodeword hm hc⟩

/-- Settles O35: each flip of a position in the span adds its number to the syndrome, which is 0 for the codeword. -/
theorem syndromeClosedForm : Obligations.SyndromeClosedForm := by
  refine ⟨fun m hi w _ _ _ => ?_, fun m c E hm hc hnodup hE => ?_⟩
  · rw [syndrome_eq_onesXor_mod, onesXor, Nat.and_two_pow_sub_one_eq_mod]
  · have hlen := length_of_validCodeword hc
    have hbefore : syndrome (flipAll c E) (parityCount m) (totalLength m - 1) =
        (E.filter (fun j => decide (j < totalLength m))).foldr (· ^^^ ·) 0 := by
      rw [syndrome_flipAll hlen hE (two_pow_lt_totalLength_pred hm).2, syndrome_of_validCodeword hm hc, Nat.zero_xor]
    refine ⟨hbefore, ?_, ?_, readSlot_flipAll hlen hE hnodup _⟩
    · rw [syndrome_eq_xor_of_pred (one_le_totalLength hm), hbefore, Nat.and_two_pow_sub_one_eq_mod]
    · rw [overallParity_flipAll hlen hE, overallParity_of_validCodeword hm hc, Bool.false_xor]

end Sys2Proof.Machine
end

section
/-! The family of spec/43, what the decoder answers: its cases, under which inputs the two spans agree, and one and two flips of
a valid codeword (R103, R105 to R107, R111, R112). -/

namespace Sys2Proof.Machine

/-! The decoder's cases, by what it computes from its operand (R105 to R107). -/

/-- The syndrome the decoder computes from a codeword operand under `span` (R102, R103). -/
def decoderSyndrome (span : DecSpan) (m : Nat) (code : BitString) : Nat :=
  syndrome code (parityCount m) (spanEnd span (totalLength m))

section
variable {span : DecSpan} {m : Nat} {code : BitString}

theorem correctionOf_eq_correct {synd : Nat} {ovp : Bool} (hs : decoderSyndrome span m code = synd)
    (ho : overallParity code (totalLength m) = ovp) :
    correctionOf span m code = correct code (totalLength m) synd ovp := by
  rw [correctionOf, ho, ← hs, decoderSyndrome]

theorem decodeBits_noError (hs : decoderSyndrome span m code = 0) (ho : overallParity code (totalLength m) = false) :
    decodeBits span m code = .ok (.decoded (totalLength m) .noError false code) := by
  obtain ⟨hcorrect, -⟩ := classificationTable code (totalLength m) 0
  rw [decodeBits_of_correction_ok ((correctionOf_eq_correct hs ho).trans hcorrect), ho]

theorem decodeBits_corrected {q : Nat} (hs : decoderSyndrome span m code = q) (hq : q ≠ 0 ∧ q ≤ totalLength m)
    (ho : overallParity code (totalLength m) = true) :
    decodeBits span m code = .ok (.decoded (totalLength m) .singleCorrected true (flipBit code q)) := by
  obtain ⟨-, hcorrect, -⟩ := classificationTable code (totalLength m) q
  rw [decodeBits_of_correction_ok ((correctionOf_eq_correct hs ho).trans (hcorrect hq.1 hq.2)), ho]

/-- The syndrome is nonzero and the parity 0, or the syndrome 0 and the parity 1. -/
theorem decodeBits_uncorrectable {ovp : Bool} (hs : decoderSyndrome span m code = 0 ↔ ovp = true)
    (ho : overallParity code (totalLength m) = ovp) :
    decodeBits span m code = .ok (.decoded (totalLength m) .doubleUncorrectable ovp code) := by
  obtain ⟨-, -, hnonzero, hzero⟩ := classificationTable code (totalLength m) (decoderSyndrome span m code)
  have hcorrect : correctionOf span m code = .ok (.doubleUncorrectable, code) := by
    cases ovp with
    | true => exact (correctionOf_eq_correct (hs.mpr rfl) ho).trans hzero
    | false => exact (correctionOf_eq_correct rfl ho).trans (hnonzero (by simpa using hs))
  rw [decodeBits_of_correction_ok hcorrect, ho]

theorem decodeBits_syndromeOutOfRange (hs : totalLength m < decoderSyndrome span m code)
    (ho : overallParity code (totalLength m) = true) : decodeBits span m code = .error .syndromeOutOfRange := by
  refine decodeBits_of_correction_error ((correctionOf_eq_correct rfl ho).trans ?_)
  simp [correct, classify, hs, Nat.ne_zero_of_lt hs]

/-- The span reaches the decoder's answer through the syndrome alone. -/
theorem decodeBits_eq_of_decoderSyndrome_eq {span' : DecSpan}
    (h : decoderSyndrome span m code = decoderSyndrome span' m code) :
    decodeBits span m code = decodeBits span' m code := by
  rw [decoderSyndrome, decoderSyndrome, totalLength] at h
  simp only [decodeBits, h]

end

/-- Settles O36: the syndromes differ by position `n`'s number cut to `r` bits, where that position holds a 1. -/
theorem spansDifferOnlyThroughPositionN : Obligations.SpansDifferOnlyThroughPositionN := by
  intro m w hm _ h
  refine decodeBits_eq_of_decoderSyndrome_eq ((syndrome_eq_xor_of_pred (one_le_totalLength hm) w _).trans ?_)
  have hnone : (if readSlot w (totalLength m) then totalLength m % 2 ^ parityCount m else 0) = 0 := by
    rcases h with h | h
    · rw [h, if_neg Bool.false_ne_true]
    · rw [h, Nat.mod_self, ite_self]
  rw [hnone, Nat.xor_zero, decoderSyndrome, spanEnd]

/-! What a flip changes in what the decoder computes. -/

theorem spanEnd_le (span : DecSpan) (n : Nat) : spanEnd span n ≤ n := by
  cases span
  · exact le_rfl
  · exact Nat.sub_le n 1

/-- The only position outside a span is `n`. -/
theorem pred_le_spanEnd (span : DecSpan) (n : Nat) : n - 1 ≤ spanEnd span n := by
  cases span
  · exact Nat.sub_le n 1
  · exact le_rfl

section
variable {span : DecSpan} {m q : Nat} {c : BitString} (hlen : c.length = totalLength m)
include hlen

theorem decoderSyndrome_flipBit (hq : 1 ≤ q ∧ q ≤ spanEnd span (totalLength m)) (hlt : q < 2 ^ parityCount m) :
    decoderSyndrome span m (flipBit c q) = decoderSyndrome span m c ^^^ q := by
  have hrange : 1 ≤ q ∧ q ≤ c.length := ⟨hq.1, hlen ▸ hq.2.trans (spanEnd_le _ _)⟩
  rw [decoderSyndrome, syndrome_flipBit hrange, if_pos hq.2, Nat.mod_eq_of_lt hlt, decoderSyndrome]

theorem decoderSyndrome_flipBit_of_spanEnd_lt (hq : spanEnd span (totalLength m) < q) (hle : q ≤ totalLength m) :
    decoderSyndrome span m (flipBit c q) = decoderSyndrome span m c := by
  have hrange : 1 ≤ q ∧ q ≤ c.length := ⟨Nat.one_le_of_lt hq, hlen ▸ hle⟩
  rw [decoderSyndrome, syndrome_flipBit hrange, if_neg (by omega), Nat.xor_zero, decoderSyndrome]

end

/-! One and two flips of a valid codeword (R111, R112). -/

section
variable {span : DecSpan} {m : Nat} {c : BitString} (hm : 1 ≤ m) (hc : ValidCodeword m c)
include hm hc

theorem decoderSyndrome_excludeN_of_validCodeword : decoderSyndrome .excludeN m c = 0 := syndrome_of_validCodeword hm hc

/-- Under `INCLUDE_N` the syndrome of a valid codeword is `n`, where the overall bit is 1. -/
theorem decoderSyndrome_includeN_of_validCodeword (hn : totalLength m < 2 ^ parityCount m) :
    decoderSyndrome .includeN m c = if readSlot c (totalLength m) then totalLength m else 0 := by
  rw [decoderSyndrome, spanEnd, syndrome_eq_xor_of_pred (one_le_totalLength hm), syndrome_of_validCodeword hm hc,
    Nat.zero_xor, Nat.mod_eq_of_lt hn]

theorem overallParity_flipBit_of_validCodeword {q : Nat} (hq : 1 ≤ q ∧ q ≤ totalLength m) :
    overallParity (flipBit c q) (totalLength m) = true := by
  rw [overallParity_flipBit (length_of_validCodeword hc) hq, overallParity_of_validCodeword hm hc, Bool.not_false]

theorem overallParity_flipBit_flipBit_of_validCodeword {a b : Nat} (ha : 1 ≤ a ∧ a ≤ totalLength m)
    (hb : 1 ≤ b ∧ b ≤ totalLength m) : overallParity (flipBit (flipBit c a) b) (totalLength m) = false := by
  rw [overallParity_flipBit ((length_flipBit c a).trans (length_of_validCodeword hc)) hb,
    overallParity_flipBit_of_validCodeword hm hc ha, Bool.not_true]

/-- A flip within the span of a codeword with syndrome 0 is found and undone. -/
theorem decodeBits_flipBit_of_clean (hclean : decoderSyndrome span m c = 0) {q : Nat}
    (hq : 1 ≤ q ∧ q ≤ spanEnd span (totalLength m)) (hlt : q < 2 ^ parityCount m) :
    decodeBits span m (flipBit c q) = .ok (.decoded (totalLength m) .singleCorrected true c) := by
  have hlen := length_of_validCodeword hc
  have hrange : 1 ≤ q ∧ q ≤ totalLength m := ⟨hq.1, hq.2.trans (spanEnd_le _ _)⟩
  have hsynd : decoderSyndrome span m (flipBit c q) = q := by
    rw [decoderSyndrome_flipBit hlen hq hlt, hclean, Nat.zero_xor]
  have hodd := overallParity_flipBit_of_validCodeword hm hc hrange
  rw [decodeBits_corrected hsynd ⟨Nat.ne_zero_of_lt hq.1, hrange.2⟩ hodd, flipBit_flipBit (hlen ▸ hrange)]

/-- Two flips of a codeword with syndrome 0 leave a nonzero syndrome: the two numbers differ, and at least one is in the span. -/
theorem decodeBits_flipBit_flipBit_of_clean (hclean : decoderSyndrome span m c = 0)
    (hn : totalLength m < 2 ^ parityCount m) {a b : Nat} (ha : 1 ≤ a) (hab : a < b) (hb : b ≤ totalLength m) :
    decodeBits span m (flipBit (flipBit c a) b) =
      .ok (.decoded (totalLength m) .doubleUncorrectable false (flipBit (flipBit c a) b)) := by
  have hlen := length_of_validCodeword hc
  have hlena : (flipBit c a).length = totalLength m := (length_flipBit c a).trans hlen
  have hpred := pred_le_spanEnd span (totalLength m)
  have hsynda : decoderSyndrome span m (flipBit c a) = a := by
    rw [decoderSyndrome_flipBit hlen ⟨ha, by omega⟩ (by omega), hclean, Nat.zero_xor]
  have hsynd : decoderSyndrome span m (flipBit (flipBit c a) b) ≠ 0 := by
    by_cases hspan : b ≤ spanEnd span (totalLength m)
    · rw [decoderSyndrome_flipBit hlena ⟨by omega, hspan⟩ (by omega), hsynda, Ne, Nat.xor_eq_zero_iff]
      exact hab.ne
    · rw [decoderSyndrome_flipBit_of_spanEnd_lt hlena (by omega) hb, hsynda]
      exact Nat.ne_zero_of_lt ha
  exact decodeBits_uncorrectable (iff_of_false hsynd Bool.false_ne_true)
    (overallParity_flipBit_flipBit_of_validCodeword hm hc ⟨ha, by omega⟩ ⟨by omega, hb⟩)

end

/-- Settles O37: a flip of position `n` is outside the span, any other is in it. -/
theorem oneFlipUnderExcludeN : Obligations.OneFlipUnderExcludeN := by
  intro m c hm hc
  have hclean := decoderSyndrome_excludeN_of_validCodeword hm hc
  have hn := one_le_totalLength hm
  refine ⟨decodeBits_noError hclean (overallParity_of_validCodeword hm hc), fun q h1 hq => ?_, ?_⟩
  · have hspan : q ≤ totalLength m - 1 := by omega
    exact decodeBits_flipBit_of_clean hm hc hclean ⟨h1, hspan⟩ (hspan.trans_lt (two_pow_lt_totalLength_pred hm).2)
  · have hsynd : decoderSyndrome .excludeN m (flipBit c (totalLength m)) = 0 :=
      (decoderSyndrome_flipBit_of_spanEnd_lt (length_of_validCodeword hc) (Nat.sub_lt hn Nat.one_pos) le_rfl).trans hclean
    exact decodeBits_uncorrectable (iff_of_true hsynd rfl) (overallParity_flipBit_of_validCodeword hm hc ⟨hn, le_rfl⟩)

/-- Settles O38: the syndrome of the codeword is 0, and every position is in the span. -/
theorem oneFlipUnderIncludeNOverallZero : Obligations.OneFlipUnderIncludeNOverallZero := by
  intro m c hm hn hc hbit
  have hclean : decoderSyndrome .includeN m c = 0 := by
    rw [decoderSyndrome_includeN_of_validCodeword hm hc hn, hbit, if_neg Bool.false_ne_true]
  exact ⟨decodeBits_noError hclean (overallParity_of_validCodeword hm hc),
    fun q h1 hq => decodeBits_flipBit_of_clean (span := .includeN) hm hc hclean ⟨h1, hq⟩ (hq.trans_lt hn)⟩

/-- Settles O39: the syndrome of the codeword is `n`, and that of one flip `q` is `q XOR n`; the three lists are evaluated. -/
theorem oneFlipUnderIncludeNOverallOne : Obligations.OneFlipUnderIncludeNOverallOne := by
  refine ⟨fun m c hm hn hc hbit => ?_, by decide +kernel, by decide +kernel, by decide +kernel⟩
  have h1n := one_le_totalLength hm
  have hclean : decoderSyndrome .includeN m c = totalLength m := by
    rw [decoderSyndrome_includeN_of_validCodeword hm hc hn, hbit, if_pos rfl]
  have hsynd {q : Nat} (h1 : 1 ≤ q) (hq : q ≤ totalLength m) :
      decoderSyndrome .includeN m (flipBit c q) = q ^^^ totalLength m := by
    rw [decoderSyndrome_flipBit (span := .includeN) (length_of_validCodeword hc) ⟨h1, hq⟩
      (hq.trans_lt hn), hclean, Nat.xor_comm]
  refine ⟨decodeBits_uncorrectable (iff_of_false (by omega) Bool.false_ne_true) (overallParity_of_validCodeword hm hc),
    fun q h1 hq => ?_, ?_⟩
  · have hodd := overallParity_flipBit_of_validCodeword hm hc ⟨h1, hq.le⟩
    have hne : q ^^^ totalLength m ≠ 0 := mt Nat.xor_eq_zero_iff.mp hq.ne
    exact ⟨fun hle => decodeBits_corrected (hsynd h1 hq.le) ⟨hne, hle⟩ hodd,
      fun hgt => decodeBits_syndromeOutOfRange (by rwa [hsynd h1 hq.le]) hodd⟩
  · have hzero : decoderSyndrome .includeN m (flipBit c (totalLength m)) = 0 :=
      (hsynd h1n le_rfl).trans (Nat.xor_self _)
    exact decodeBits_uncorrectable (iff_of_true hzero rfl) (overallParity_flipBit_of_validCodeword hm hc ⟨h1n, le_rfl⟩)

/-- Settles O40: the syndrome of the codeword is 0 in both cases. -/
theorem doubleErrorsAreDetected : Obligations.DoubleErrorsAreDetected := by
  intro m a b c hm hn hc ha hab hb
  refine ⟨decodeBits_flipBit_flipBit_of_clean hm hc (decoderSyndrome_excludeN_of_validCodeword hm hc) hn ha hab hb,
    fun hbit => decodeBits_flipBit_flipBit_of_clean hm hc ?_ hn ha hab hb⟩
  rw [decoderSyndrome_includeN_of_validCodeword hm hc hn, hbit, if_neg Bool.false_ne_true]

/-- Settles O41: the syndrome is `n XOR a XOR b`, which is 0 for the pairs that XOR to `n`; `b = n` is none of them, since `a` is
not 0. The pairs for 13 are evaluated. -/
theorem doubleErrorsThatEscapeUnderIncludeN : Obligations.DoubleErrorsThatEscapeUnderIncludeN := by
  refine ⟨fun m a b c hm hn hc hbit ha hab hb => ?_, by decide +kernel⟩
  have hlen := length_of_validCodeword hc
  have hsynd : decoderSyndrome .includeN m (flipBit (flipBit c a) b) = totalLength m ^^^ (a ^^^ b) := by
    rw [decoderSyndrome_flipBit (span := .includeN) ((length_flipBit c a).trans hlen) ⟨by omega, hb⟩ (by omega),
      decoderSyndrome_flipBit (span := .includeN) hlen ⟨ha, (hab.trans_le hb).le⟩ (by omega),
      decoderSyndrome_includeN_of_validCodeword hm hc hn, hbit, if_pos rfl, Nat.xor_assoc]
  have hescape : decoderSyndrome .includeN m (flipBit (flipBit c a) b) = 0 ↔
      b < totalLength m ∧ a ^^^ b = totalLength m := by
    rw [hsynd, Nat.xor_eq_zero_iff, eq_comm]
    refine ⟨fun he => ⟨hb.lt_of_ne ?_, he⟩, And.right⟩
    rintro rfl
    have hzero : a = 0 := by simpa using he
    omega
  have heven := overallParity_flipBit_flipBit_of_validCodeword hm hc ⟨ha, (hab.trans_le hb).le⟩ ⟨by omega, hb⟩
  split
  next h => exact decodeBits_noError (hescape.mpr h) heven
  next h => exact decodeBits_uncorrectable (iff_of_false (mt hescape.mp h) Bool.false_ne_true) heven

end Sys2Proof.Machine
end

section
/-! The family of spec/43, the operation: `decode` on every payload, and behind `encode` and the injections (R100, R113, R114). -/

namespace Sys2Proof.Machine

/-! The operation `decode` on every payload (R100). -/

theorem decodeResult_eq_decodeBits {m : Nat} (hm : m = 8 ∨ m = 16 ∨ m = 32) (span : DecSpan) (p : Payload) :
    decodeResult span m p = decodeBits span m (codeOperand m p) := if_pos (supported_iff.mpr hm)

theorem hiOf_eq_spanEnd (s : State) (n : Nat) : hiOf s n = spanEnd s.config.decSpan n := by
  unfold hiOf spanEnd; cases s.config.decSpan <;> rfl

theorem readSlot_codeOperand {m j : Nat} (hj : 1 ≤ j ∧ j ≤ totalLength m) (p : Payload) :
    readSlot (codeOperand m p) j = positionBit p j := readSlot_bitsOfPayload p hj

/-- The syndrome of the operand is the closed form of R110 read from the payload. -/
theorem decoderSyndrome_codeOperand (s : State) (m : Nat) (p : Payload) :
    decoderSyndrome s.config.decSpan m (codeOperand m p) = syndOf s m p := by
  have hones : (positions (hiOf s (totalLength m))).filter (readSlot (codeOperand m p)) =
      (positions (hiOf s (totalLength m))).filter (positionBit p) :=
    List.filter_congr fun j hj => by
      obtain ⟨h1, hle⟩ := mem_positions.mp hj
      rw [hiOf_eq_spanEnd] at hle
      exact readSlot_codeOperand ⟨h1, hle.trans (spanEnd_le _ _)⟩ p
  rw [decoderSyndrome, ← hiOf_eq_spanEnd, syndrome_eq_onesXor_mod, onesXor, hones]
  rfl

/-- The overall parity of the operand is the oddness of the 1s read from the payload (R104). -/
theorem overallParity_codeOperand (m : Nat) (p : Payload) :
    overallParity (codeOperand m p) (totalLength m) = decide (onesOf m p % 2 = 1) := by
  have hones : (positions (totalLength m)).filter (readSlot (codeOperand m p)) =
      (positions (totalLength m)).filter (fun j => true && positionBit p j) :=
    List.filter_congr fun j hj => readSlot_codeOperand (mem_positions.mp hj) p
  rw [overallParity, xorOver_eq_decide_odd, hones]
  rfl

theorem carries_packResponse_of_eq {r r' : Response} (h : r = r') : Carries (packResponse r) r' :=
  h ▸ carries_packResponse r

/-- Settles O30: the corrector's cases on the parity of the count of 1s and the syndrome in closed form. -/
theorem decodeCompletes : Obligations.DecodeCompletes := by
  intro s m p hm hsmall
  refine ⟨_, exec_eq_answered _ s, carries_packResponse_of_eq ?_⟩
  have hs := decoderSyndrome_codeOperand s m p
  have ho := overallParity_codeOperand m p
  have hcut : payloadOfBits (codeOperand m p) = cutPayload p (totalLength m) := payloadOfBits_bitsOfPayload _ p
  rw [resultOf, decodeResult_eq_decodeBits hm]
  rw [SyndromeTooLarge] at hsmall
  rcases Nat.mod_two_eq_zero_or_one (onesOf m p) with heven | hodd
  · rw [heven] at ho ⊢
    by_cases hz : syndOf s m p = 0
    · rw [decodeBits_noError (hs.trans hz) ho]
      simp [replyOf, responseOf, statusCode, hz, hcut]
    · rw [decodeBits_uncorrectable (by simp [hs, hz]) ho]
      simp [replyOf, responseOf, statusCode, hz, hcut]
  · rw [hodd] at ho ⊢
    by_cases hz : syndOf s m p = 0
    · rw [decodeBits_uncorrectable (by simp [hs, hz]) ho]
      simp [replyOf, responseOf, statusCode, hz, hcut]
    · have hle : syndOf s m p ≤ totalLength m := Nat.le_of_not_lt fun hlt => hsmall ⟨hz, hodd, hlt⟩
      have hrange : 1 ≤ syndOf s m p ∧ syndOf s m p ≤ (codeOperand m p).length :=
        ⟨Nat.pos_of_ne_zero hz, by rwa [length_codeOperand]⟩
      rw [decodeBits_corrected hs ⟨hz, hle⟩ ho]
      simp [replyOf, responseOf, statusCode, hz, hcut, payloadOfBits_flipBit hrange]

/-! Commands of the spec, the first after reset. -/

theorem firstResponses_decode {w : Word} {m : Nat} {p : Payload} (hd : decodeCommand w = .ok (.decode m p)) (c : Config)
    (d : Draw) : firstResponses c (.command w d) = [packResponse (replyOf (decodeResult c.decSpan m p))] :=
  firstResponses_command hd { State.reset with config := c, rnd := d }

/-- Settles O32: the syndrome bit by bit; the check of `2^i` with slot `2^i` apart; the scenario is evaluated. -/
theorem syndromeIsTheOrOfFailingChecks : Obligations.SyndromeIsTheOrOfFailingChecks := by
  refine ⟨fun code r hi => ⟨syndrome_lt_two_pow code r hi, fun i hi => ?_, fun i _ hle => ?_⟩, fun ⟨span⟩ d => ?_⟩
  · rw [testBit_syndrome, decide_eq_true hi, Bool.true_and]
  · rw [chk_eq_xor_coverOthers hle, coverOthers, bne_iff_ne, ne_comm]
  · have hdecode : decodeCommand 0x84000000000004E5 = .ok (.decode 8 0x4E5) := by decide
    rw [firstResponses_decode hdecode]
    cases span <;> decide +kernel

/-- Settles O42: the four words decode, and each response is evaluated under both spans. -/
theorem moreThanTwoFlipsOfTheScenarioCodeword : Obligations.MoreThanTwoFlipsOfTheScenarioCodeword := by
  intro ⟨span⟩ d
  have hmiscorrected : decodeCommand 0x84000000000004EE = .ok (.decode 8 0x4EE) := by decide
  have hreported : decodeCommand 0x84000000000004D1 = .ok (.decode 8 0x4D1) := by decide
  have hfaulted : decodeCommand 0x8400000000000CE6 = .ok (.decode 8 0xCE6) := by decide
  have hfour : decodeCommand 0x84000000000004EA = .ok (.decode 8 0x4EA) := by decide
  rw [firstResponses_decode hmiscorrected, firstResponses_decode hreported, firstResponses_decode hfaulted,
    firstResponses_decode hfour]
  cases span <;> decide +kernel

/-! The pipeline of the host (R58, R114): an operation on the payload of a codeword of length `n`. -/

section
variable {m : Nat} (hm : m = 8 ∨ m = 16 ∨ m = 32)
include hm

theorem exec_encode (p : Payload) (s : State) :
    ∃ w, exec (.encode m p) s = .next (s.answered w) ∧ (unpackResponse w).fault = 0 ∧
      (unpackResponse w).payload = payloadOfBits (encodeBits m (dataOperand m p)) := by
  refine ⟨_, exec_eq_answered _ s, ?_⟩
  rw [unpackResponse_packResponse, resultOf, encodeResult_ok hm]
  exact ⟨rfl, rfl⟩

variable {c : BitString} (hlen : c.length = totalLength m)
include hlen

theorem codeOperand_payloadOfBits : codeOperand m (payloadOfBits c) = c := by
  rw [codeOperand, ← hlen]
  exact bitsOfPayload_payloadOfBits (hlen.trans_le (totalLength_le_of_supported hm))

theorem exec_injectAt {q : Nat} (hq : 1 ≤ q ∧ q ≤ totalLength m) (s : State) :
    ∃ w, exec (.injectAt m q (payloadOfBits c)) s = .next (s.answered w) ∧ (unpackResponse w).fault = 0 ∧
      (unpackResponse w).payload = payloadOfBits (flipBit c q) := by
  refine ⟨_, exec_eq_answered _ s, ?_⟩
  rw [unpackResponse_packResponse, resultOf, injectAtResult_ok hm hq, codeOperand_payloadOfBits hm hlen]
  exact ⟨rfl, rfl⟩

theorem exec_decode (s : State) :
    exec (.decode m (payloadOfBits c)) s =
      .next (s.answered (packResponse (replyOf (decodeBits s.config.decSpan m c)))) := by
  rw [exec_eq_answered, resultOf, decodeResult_eq_decodeBits hm, codeOperand_payloadOfBits hm hlen]

end

theorem carries_of_decodeBits {span : DecSpan} {m n : Nat} {c cw : BitString} {status : Status} {ovp : Bool}
    (h : decodeBits span m c = .ok (.decoded n status ovp cw)) :
    Carries (packResponse (replyOf (decodeBits span m c)))
      ⟨0, statusCode status, BitVec.ofBool ovp, BitVec.ofNat 7 n, 0, payloadOfBits cw⟩ := by
  rw [h]; exact carries_packResponse _

/-- A fresh codeword is a valid codeword, shorter than `2^r` for the supported lengths. -/
theorem validCodeword_encodeBits_dataOperand (m : Nat) (p : Payload) : ValidCodeword m (encodeBits m (dataOperand m p)) :=
  ⟨_, length_dataOperand m p, rfl⟩

theorem totalLength_lt_two_pow {m : Nat} (hm : m = 8 ∨ m = 16 ∨ m = 32) : totalLength m < 2 ^ parityCount m :=
  totalLength_lt_two_pow_of_supported (by simpa [supportedM] using hm)

theorem positionBit_payloadOfBits_totalLength {m : Nat} (hm : m = 8 ∨ m = 16 ∨ m = 32) {c : BitString}
    (hlen : c.length = totalLength m) : positionBit (payloadOfBits c) (totalLength m) = readSlot c (totalLength m) :=
  positionBit_payloadOfBits (hlen.trans_le (totalLength_le_of_supported hm)) (one_le_totalLength (by omega))

/-- Without an error the tag depends on the span and the overall bit alone, and the codeword is kept (R114 P2). -/
theorem decodeBits_validCodeword {m : Nat} {c : BitString} (hm : 1 ≤ m) (hn : totalLength m < 2 ^ parityCount m)
    (hc : ValidCodeword m c) (span : DecSpan) :
    decodeBits span m c = .ok (.decoded (totalLength m)
      (if span = .includeN ∧ readSlot c (totalLength m) = true then .doubleUncorrectable else .noError) false c) := by
  cases span with
  | excludeN => simpa using (oneFlipUnderExcludeN m c hm hc).1
  | includeN =>
    cases hbit : readSlot c (totalLength m) with
    | false => simpa using (oneFlipUnderIncludeNOverallZero m c hm hn hc hbit).1
    | true => simpa using (oneFlipUnderIncludeNOverallOne.1 m c hm hn hc hbit).1

/-- Settles O43: `decode` gets the fresh codeword back from the payload. -/
theorem roundTripWithoutError : Obligations.RoundTripWithoutError := by
  intro s t m p hm
  have hm1 : 1 ≤ m := by omega
  have hc := validCodeword_encodeBits_dataOperand m p
  have hlen := length_of_validCodeword hc
  obtain ⟨w, hencode, hfault, hpayload⟩ := exec_encode hm p s
  refine ⟨w, _, hencode, hfault, hpayload ▸ exec_decode hm hlen t, ?_⟩
  rw [hpayload, positionBit_payloadOfBits_totalLength hm hlen]
  have hcarries := carries_of_decodeBits (decodeBits_validCodeword hm1 (totalLength_lt_two_pow hm) hc t.config.decSpan)
  rwa [apply_ite statusCode] at hcarries

/-- Settles O44: one flip is corrected in both cases. -/
theorem pipelineCorrectsOneInjectedError : Obligations.PipelineCorrectsOneInjectedError := by
  intro s t u m q p hm h1 hq
  have hm1 : 1 ≤ m := by omega
  have hc := validCodeword_encodeBits_dataOperand m p
  have hlen := length_of_validCodeword hc
  obtain ⟨w, hencode, hfaultw, hpayloadw⟩ := exec_encode hm p s
  obtain ⟨x, hinject, hfaultx, hpayloadx⟩ := exec_injectAt hm hlen ⟨h1, hq⟩ t
  refine ⟨w, x, _, hencode, hfaultw, hpayloadw ▸ hinject, hfaultx,
    hpayloadx ▸ exec_decode hm ((length_flipBit _ q).trans hlen) u, fun h => ?_⟩
  rw [hpayloadw, positionBit_payloadOfBits_totalLength hm hlen] at h
  rw [hpayloadw]
  rcases h with ⟨hspan, hlt⟩ | ⟨hspan, hbit⟩
  · rw [hspan]
    exact carries_of_decodeBits ((oneFlipUnderExcludeN m _ hm1 hc).2.1 q h1 hlt)
  · rw [hspan]
    exact carries_of_decodeBits ((oneFlipUnderIncludeNOverallZero m _ hm1 (totalLength_lt_two_pow hm) hc hbit).2 q h1 hq)

/-- Settles O45: two flips are detected in both cases. -/
theorem pipelineDetectsTwoInjectedErrors : Obligations.PipelineDetectsTwoInjectedErrors := by
  intro s t u v m a b p hm ha hab hb
  have hc := validCodeword_encodeBits_dataOperand m p
  have hlen := length_of_validCodeword hc
  have hlena := (length_flipBit _ a).trans hlen
  obtain ⟨w, hencode, hfaultw, hpayloadw⟩ := exec_encode hm p s
  obtain ⟨x, hinjecta, hfaultx, hpayloadx⟩ := exec_injectAt hm hlen ⟨ha, (hab.trans_le hb).le⟩ t
  obtain ⟨y, hinjectb, hfaulty, hpayloady⟩ := exec_injectAt hm hlena ⟨ha.trans hab.le, hb⟩ u
  refine ⟨w, x, y, _, hencode, hfaultw, hpayloadw ▸ hinjecta, hfaultx, hpayloadx ▸ hinjectb, hfaulty,
    hpayloady ▸ exec_decode hm ((length_flipBit _ b).trans hlena) v, fun h => ?_⟩
  rw [hpayloadw, positionBit_payloadOfBits_totalLength hm hlen] at h
  rw [hpayloady]
  obtain ⟨hexclude, hinclude⟩ := doubleErrorsAreDetected m a b _ (by omega) (totalLength_lt_two_pow hm) hc ha hab hb
  cases hspan : v.config.decSpan with
  | excludeN => exact carries_of_decodeBits hexclude
  | includeN => exact carries_of_decodeBits (hinclude (h.resolve_left (by simp [hspan])))

end Sys2Proof.Machine
end

section
/-! The family of spec/60: the word a fault is answered with, the operand each fault is raised on, and the order of the checks
(R120 to R126). -/

namespace Sys2Proof.Machine

/-! The response to a fault (R120, R126). -/

theorem packResponse_faultResponse (f : Fault) : packResponse (faultResponse f) = faultWord f := by
  cases f <;> decide

/-- An operation that raises a fault delivers that fault's word and changes nothing else. -/
theorem exec_of_resultOf_error {i : Instr} {s : State} {f : Fault} (h : resultOf i s = .error f) :
    exec i s = .next (s.answered (faultWord f)) := by
  rw [exec_eq_answered, h, replyOf, packResponse_faultResponse]

theorem fault_replyOf_ok (r : Result) : (replyOf (.ok r)).fault = 0 := by cases r <;> rfl

theorem fault_replyOf_error (f : Fault) : (replyOf (.error f)).fault = faultCode f := rfl

/-- Only a fault packs to a response that reports one. -/
theorem eq_error_of_isFaultWord {e : Except Fault Result} (h : isFaultWord (packResponse (replyOf e)) = true) :
    ∃ f, e = .error f := by
  cases e with
  | ok r => simp [fault_replyOf_ok] at h
  | error f => exact ⟨f, rfl⟩

/-! Lengths and positions that fault (R122, R123). -/

section
variable {m : Nat} (hm : ¬(m = 8 ∨ m = 16 ∨ m = 32))
include hm

theorem encodeResult_badLength (p : Payload) : encodeResult m p = .error .badLength :=
  if_neg (mt supported_iff.mp hm)

theorem injectAtResult_badLength (pos : Nat) (p : Payload) : injectAtResult m pos p = .error .badLength :=
  if_neg (mt supported_iff.mp hm)

theorem decodeResult_badLength (span : DecSpan) (p : Payload) : decodeResult span m p = .error .badLength :=
  if_neg (mt supported_iff.mp hm)

end

theorem totalLengthResult_badLength {m : Nat} (h : ¬(1 ≤ m ∧ m ≤ 63)) : totalLengthResult m = .error .badLength :=
  if_neg (mt legalForTotalLength_iff.mp h)

theorem injectAtResult_posOutOfRange {m pos : Nat} (hm : m = 8 ∨ m = 16 ∨ m = 32) (hpos : pos = 0 ∨ totalLength m < pos)
    (p : Payload) : injectAtResult m pos p = .error .posOutOfRange := by
  have hrange : ¬(1 ≤ pos ∧ pos ≤ totalLength m) := by omega
  rw [injectAtResult, if_pos (supported_iff.mpr hm), if_neg (mt inRange_iff.mp hrange)]

/-! The decoder's fault (R124): raised on an odd number of 1s with a syndrome above `n`, and on nothing else. -/

theorem decodeResult_syndromeOutOfRange {s : State} {m : Nat} {p : Payload} (hm : m = 8 ∨ m = 16 ∨ m = 32)
    (h : SyndromeTooLarge s m p) : decodeResult s.config.decSpan m p = .error .syndromeOutOfRange := by
  obtain ⟨-, hodd, hlarge⟩ := h
  rw [decodeResult_eq_decodeBits hm]
  refine decodeBits_syndromeOutOfRange ?_ ?_
  · rwa [decoderSyndrome_codeOperand]
  · rw [overallParity_codeOperand, hodd]; rfl

theorem exists_decodeBits_ok {span : DecSpan} {m : Nat} {code : BitString}
    (h : overallParity code (totalLength m) = true → decoderSyndrome span m code ≤ totalLength m) :
    ∃ r, decodeBits span m code = .ok r := by
  rcases correct_cases code (totalLength m) (decoderSyndrome span m code) (overallParity code (totalLength m)) with
    ⟨-, -, hc⟩ | ⟨-, -, -, hc⟩ | ⟨-, hovp, hlarge, -⟩ | ⟨-, hc⟩
  · exact ⟨_, decodeBits_of_correction_ok hc⟩
  · exact ⟨_, decodeBits_of_correction_ok hc⟩
  · exact absurd (h hovp) hlarge.not_ge
  · exact ⟨_, decodeBits_of_correction_ok hc⟩

theorem exists_decodeResult_ok {s : State} {m : Nat} {p : Payload} (hm : m = 8 ∨ m = 16 ∨ m = 32)
    (h : ¬SyndromeTooLarge s m p) : ∃ r, decodeResult s.config.decSpan m p = .ok r := by
  rw [decodeResult_eq_decodeBits hm]
  refine exists_decodeBits_ok fun hovp => ?_
  rw [overallParity_codeOperand, decide_eq_true_iff] at hovp
  rw [decoderSyndrome_codeOperand]
  exact Nat.le_of_not_lt fun hlarge => h ⟨Nat.ne_zero_of_lt hlarge, hovp, hlarge⟩

/-- Settles O31: the decoder raises the fault, and its word is delivered. -/
theorem syndromeOutOfRangeFaults : Obligations.SyndromeOutOfRangeFaults := by
  intro s m p hm h
  exact exec_of_resultOf_error (f := .syndromeOutOfRange) (decodeResult_syndromeOutOfRange hm h)

/-! The fault code of each operation, its checks in their order (R125). -/

/-- The `M` field holds none of the supported lengths exactly when its number is none of them. -/
theorem field_unsupported_iff (x : BitVec 6) :
    (x ≠ 8 ∧ x ≠ 16 ∧ x ≠ 32) ↔ ¬(x.toNat = 8 ∨ x.toNat = 16 ∨ x.toNat = 32) := by
  simp [← BitVec.toNat_inj]

theorem field_eq_zero_iff (x : BitVec 6) : x = 0 ↔ x.toNat = 0 := by
  simp [← BitVec.toNat_inj]

theorem fault_totalLengthResult (x : BitVec 6) :
    (replyOf (totalLengthResult x.toNat)).fault = if x = 0 then 2 else 0 := by
  simp only [field_eq_zero_iff]
  split
  next h => rw [totalLengthResult_badLength (by omega)]; rfl
  next h => rw [totalLengthResult_ok (by omega), fault_replyOf_ok]

theorem fault_encodeResult (x : BitVec 6) (p : Payload) :
    (replyOf (encodeResult x.toNat p)).fault = if x ≠ 8 ∧ x ≠ 16 ∧ x ≠ 32 then 2 else 0 := by
  simp only [field_unsupported_iff]
  split
  next hm => rw [encodeResult_badLength hm]; rfl
  next hm => rw [encodeResult_ok (not_not.mp hm), fault_replyOf_ok]

theorem fault_injectAtResult (x y : BitVec 6) (p : Payload) :
    (replyOf (injectAtResult x.toNat y.toNat p)).fault =
      if x ≠ 8 ∧ x ≠ 16 ∧ x ≠ 32 then 2 else if y = 0 ∨ totalLength x.toNat < y.toNat then 3 else 0 := by
  simp only [field_unsupported_iff, field_eq_zero_iff]
  split
  next hm => rw [injectAtResult_badLength hm]; rfl
  next hm =>
    split
    next hpos => rw [injectAtResult_posOutOfRange (not_not.mp hm) hpos]; rfl
    next hpos => rw [injectAtResult_ok (not_not.mp hm) (by omega), fault_replyOf_ok]

theorem fault_decodeResult (s : State) (x : BitVec 6) (p : Payload) :
    (replyOf (decodeResult s.config.decSpan x.toNat p)).fault =
      if x ≠ 8 ∧ x ≠ 16 ∧ x ≠ 32 then 2
      else if syndOf s x.toNat p ≠ 0 ∧ onesOf x.toNat p % 2 = 1 ∧ totalLength x.toNat < syndOf s x.toNat p then 4
      else 0 := by
  simp only [field_unsupported_iff]
  split
  next hm => rw [decodeResult_badLength hm]; rfl
  next hm =>
    split
    next hlarge => rw [decodeResult_syndromeOutOfRange (not_not.mp hm) hlarge]; rfl
    next hsmall =>
      obtain ⟨r, hr⟩ := exists_decodeResult_ok (not_not.mp hm) hsmall
      rw [hr, fault_replyOf_ok]

/-- Settles O46: the row of the opcode map selects the operation, whose fault code follows its checks. -/
theorem faultPriority : Obligations.FaultPriority := by
  intro s w d rest h
  refine ⟨_, step_command_eq_answered h, ?_⟩
  rw [unpackResponse_packResponse]
  rcases op_cases (cmdOp w) with hop | hop | hop | hop | hop | hop
  · rw [commandResult_totalLength hop, fault_totalLengthResult]
    simp [hop]
  · rw [commandResult_encode hop, fault_encodeResult]
    simp [hop]
  · rw [commandResult_injectAt hop, fault_injectAtResult]
    simp [hop]
  · rw [commandResult_injectRandom hop, State.accept_rnd, injectRandomResult_eq_injectAtResult, fault_injectAtResult]
    simp [hop]
  · rw [commandResult_decode hop, State.accept_config, fault_decodeResult]
    simp [hop]
  · rw [commandResult_illegal hop, if_pos hop]
    rfl

/-! A step that delivers a response (R126). -/

/-- Only a command is answered, with the word some outcome packs to; the constant stays and one input is taken. -/
theorem step_delivers {s t : State} {w : Word} (h : step s = .next t) (hw : t.responses = s.responses ++ [w]) :
    (∃ e, w = packResponse (replyOf e)) ∧ t.config = s.config ∧ t.inputs = s.inputs.tail := by
  cases hinputs : s.inputs with
  | nil =>
    rw [step_idle hinputs] at h
    cases h
    simp at hw
  | cons x rest =>
    cases x with
    | reset c =>
      rw [step_reset hinputs] at h
      cases h
      simp at hw
    | command v d =>
      rw [step_command_eq_answered hinputs] at h
      cases h
      have hword := List.append_cancel_left hw
      exact ⟨⟨_, (List.singleton_inj.mp hword).symm⟩, rfl, rfl⟩

/-- Settles O47: the outcome behind a fault word is a fault, which packs to one of the four words. -/
theorem faultedResponseIsTheCodeAlone : Obligations.FaultedResponseIsTheCodeAlone := by
  intro s t w h hw hfault
  obtain ⟨⟨e, rfl⟩, hframe⟩ := step_delivers h hw
  obtain ⟨f, rfl⟩ := eq_error_of_isFaultWord hfault
  refine ⟨?_, hframe⟩
  rw [replyOf, packResponse_faultResponse]
  cases f <;> simp [faultWord]

/-! Each fault's word on the operands that raise it (R121 to R123). -/

/-- Settles O2: such a word does not decode, and the step answers what does not decode. -/
theorem illegalOpFaultsWhateverTheOtherFields : Obligations.IllegalOpFaultsWhateverTheOtherFields := by
  intro s w d rest h hop
  obtain ⟨-, -, hcommand⟩ := stepRunsTheDecodedCommand s
  obtain ⟨-, hillegal⟩ := hcommand w d rest h
  exact hillegal _ (decodeCommand_illegal (hop.trans_eq (cmdOp_toNat w).symm))

/-- Settles O15: each operation checks its length first. -/
theorem badLengthFaults : Obligations.BadLengthFaults := by
  refine fun s => ⟨exec_of_resultOf_error (f := .badLength) (totalLengthResult_badLength (by omega)),
    fun m pos p h8 h16 h32 => ?_⟩
  have hm : ¬(m = 8 ∨ m = 16 ∨ m = 32) := by omega
  exact ⟨exec_of_resultOf_error (f := .badLength) (encodeResult_badLength hm p),
    exec_of_resultOf_error (f := .badLength) (injectAtResult_badLength hm pos p),
    exec_of_resultOf_error (f := .badLength) (injectAtResult_badLength hm s.rnd.toNat p),
    exec_of_resultOf_error (f := .badLength) (decodeResult_badLength hm s.config.decSpan p)⟩

/-- Settles O29: the position is checked once the length is legal; `inject_random` has the draw in its place. -/
theorem posOutOfRangeFaults : Obligations.PosOutOfRangeFaults := by
  intro s m pos p hm
  have hinject : ∀ q, q = 0 ∨ totalLength m < q → exec (.injectAt m q p) s = .next (s.answered 0x6000000000000000) :=
    fun q hq => exec_of_resultOf_error (f := .posOutOfRange) (injectAtResult_posOutOfRange hm hq p)
  exact ⟨hinject pos, fun hdraw => (injectRandomIsInjectAtGivenTheDraw s m p).trans (hinject _ hdraw)⟩

end Sys2Proof.Machine
end

section
/-! The family of spec/70: every input is handled in one step (R4, R151), and the state after reset (R140). -/

namespace Sys2Proof.Machine

/-- Settles O50: the oldest input is none, a reset input or a command, and the step's equation for each names the next state. -/
theorem everyInputIsHandledInOneStep : Obligations.EveryInputIsHandledInOneStep := by
  intro s
  cases h : s.inputs with
  | nil => exact ⟨s, step_idle h, h, rfl, rfl⟩
  | cons x rest =>
    cases x with
    | reset c => exact ⟨s.abandon rest, step_reset h, rfl, rfl, rfl⟩
    | command w d => exact ⟨_, step_command_eq_answered h, rfl, rfl, _, rfl⟩

/-- Settles O49: no response has been delivered. -/
theorem resetMeetsTheInvariant : Obligations.ResetMeetsTheInvariant := List.all_nil

/-- Settles O53: the idle step on the reset state, and the step on a reset input from every state. -/
theorem resetLeavesAnIdleEngine : Obligations.ResetLeavesAnIdleEngine :=
  ⟨rfl, rfl, step_idle rfl, fun _ _ _ => step_reset⟩

end Sys2Proof.Machine
end
